-- ==== Sys2Proof/Word.lean ====
section
/-! DEFINITION. The two word types of the block (spec/00_scope.md R10): a byte is 8 bits, a register is 32 bits. -/

namespace Sys2Proof

/-- An 8-bit unsigned value (R10). -/
abbrev Byte := BitVec 8

/-- A 32-bit register or command word (R18, R61). -/
abbrev Word := BitVec 32

end Sys2Proof
end

