-- ==== Sys2Proof/Config.lean ====
section
/-! DEFINITION. What an instance of the block fixes (spec/00_scope.md R6, R7, R9), the fixed constants of R8, and the
flag and type assignments of spec/30_encoding.md R82 to R84. The parameters are a record that State carries, so every
statement about a state holds for every instance. No value is left free: the spec states every result (INVENTORY.md). -/

namespace Sys2Proof

/-- `FOOTER_REV` (R6): the frame footer is `footerMagic, crc` (TAGGED) or `crc` alone (PLAIN). -/
inductive FooterRev where
  | tagged
  | plain
deriving DecidableEq, Repr

/-- The parameters of one instance: `FOOTER_REV` (R6), `CRC_LO`, `CRC_HI`, `CRC_INIT` (R7) and `BASE` (R9). -/
structure Params where
  footerRev : FooterRev
  crcLo : Vector Byte 16
  crcHi : Vector Byte 16
  crcInit : Byte
  base : Nat
deriving DecidableEq, Repr

/-- `PKT_MAGIC` (R8). -/
def pktMagic : Byte := 0xAC#8
/-- `FRM_MAGIC` (R8). -/
def frmMagic : Byte := 0xAE#8
/-- `FRM_FOOTER_MAGIC` (R8). -/
def frmFooterMagic : Byte := 0xAF#8
/-- `MAX_TOTAL` (R8), which is also the size of PBUF (spec/10_state.md R24). -/
def maxTotal : Nat := 64
/-- `PKT_HEADER_SIZE` (R8). -/
def pktHeaderSize : Nat := 4
/-- `PKT_FOOTER_SIZE` (R8). -/
def pktFooterSize : Nat := 1
/-- `MIN_TOTAL` (R8), by the source's formula. -/
def minTotal : Nat := pktHeaderSize + pktFooterSize
/-- `MAX_PAYLOAD` (R8), by the source's formula. -/
def maxPayload : Nat := maxTotal - pktHeaderSize - pktFooterSize
/-- `FRM_HEADER_SIZE` (R8). -/
def frmHeaderSize : Nat := 3
/-- `FRM_PAYLOAD_LEN` (R8). -/
def frmPayloadLen : Nat := 16
/-- `MAX_FRAMES` (R8), by the source's integer arithmetic. -/
def maxFrames : Nat := (maxTotal + frmPayloadLen - 1) / frmPayloadLen
/-- `PKT_PAYLOAD_OFFSET` (R8): the payload-pointer accessor is this constant (spec/41_packet_codec.md R114). -/
def pktPayloadOffset : Nat := pktHeaderSize
/-- `FRM_PAYLOAD_OFFSET` (R8): the payload-pointer accessor is this constant (spec/42_frame_codec.md R134). -/
def frmPayloadOffset : Nat := frmHeaderSize

/-- `FRM_NORESPONSE`, frame flag bit 0 (R83). -/
def frmNoResponse : Byte := 0x01#8
/-- `FRM_TE`, TransactionEnd, frame flag bit 1 (R83). -/
def frmTE : Byte := 0x02#8
/-- `FRM_RR`, RequestResend, frame flag bit 2 (R83). -/
def frmRR : Byte := 0x04#8

/-- Packet flag NoResponse (R82); no command reads it. -/
def pktNoResponse : Byte := 0x01#8
/-- Packet flag Response (R82); no command reads it. -/
def pktResponse : Byte := 0x02#8
/-- Packet flag Error (R82); no command reads it. -/
def pktError : Byte := 0x04#8

/-- The packet types by name (R84); no command reads a packet's type. -/
inductive PacketType where
  | requestResend
  | getGlobalHash
  | getValueList
  | setValueList
  | saveValueList
  | loadValueList
  | getValueCount
  | getValueName
  | getProcessCount
  | enumerateProcesses
  | getProcessName
  | getProcessDiagnostics
deriving DecidableEq, Repr

/-- The list position R84 gives each packet type. -/
def PacketType.code : PacketType → Byte
  | .requestResend => 0x00#8
  | .getGlobalHash => 0x01#8
  | .getValueList => 0x02#8
  | .setValueList => 0x03#8
  | .saveValueList => 0x04#8
  | .loadValueList => 0x05#8
  | .getValueCount => 0x06#8
  | .getValueName => 0x07#8
  | .getProcessCount => 0x08#8
  | .enumerateProcesses => 0x09#8
  | .getProcessName => 0x0A#8
  | .getProcessDiagnostics => 0x0B#8

/-- `FRAME_FOOTER_SIZE` (R6). -/
def Params.frameFooterSize (p : Params) : Nat :=
  match p.footerRev with
  | .tagged => 2
  | .plain => 1

/-- `FRAME_SIZE = 3 + 16 + FRAME_FOOTER_SIZE` (R6). -/
def Params.frameSize (p : Params) : Nat := frmHeaderSize + frmPayloadLen + p.frameFooterSize

/-- `FRAME_CRC_OFFSET = FRAME_SIZE - 1` (R6). -/
def Params.frameCrcOffset (p : Params) : Nat := p.frameSize - 1

/-- `FOOTER_MAGIC_OFFSET` (R6, TAGGED only). -/
def footerMagicOffset : Nat := frmHeaderSize + frmPayloadLen

/-- The low-nibble table of the default instance (spec/40_crc.md R97). PRESUMED by the spec itself from general
knowledge, assumption log 2. -/
def defaultCrcLo : Vector Byte 16 :=
  #v[0x00#8, 0x5E#8, 0xBC#8, 0xE2#8, 0x61#8, 0x3F#8, 0xDD#8, 0x83#8,
     0xC2#8, 0x9C#8, 0x7E#8, 0x20#8, 0xA3#8, 0xFD#8, 0x1F#8, 0x41#8]

/-- The high-nibble table of the default instance (spec/40_crc.md R97), assumption log 2. -/
def defaultCrcHi : Vector Byte 16 :=
  #v[0x00#8, 0x9D#8, 0x23#8, 0xBE#8, 0x46#8, 0xDB#8, 0x65#8, 0xF8#8,
     0x8C#8, 0x11#8, 0xAF#8, 0x32#8, 0xCA#8, 0x57#8, 0xE9#8, 0x74#8]

/-- The default instance: TAGGED (R6), R97's tables, `CRC_INIT = 0x00` (R7). `BASE` is OPEN (R9); the default instance
puts it at 0: DESIGN CHOICE, assumption log 3. -/
def Params.default : Params where
  footerRev := .tagged
  crcLo := defaultCrcLo
  crcHi := defaultCrcHi
  crcInit := 0x00#8
  base := 0

end Sys2Proof
end

