-- ==== Sys2Proof/Syntax.lean ====
section
/-! DEFINITION. The commands of spec/30_encoding.md R62, one constructor per row of spec/opcode_table.json. An operand is
the whole byte field (R63), so its type is Byte and no out-of-range operand can be written; an ignored field (R64) is no
argument. -/

namespace Sys2Proof

/-- The two buffers (spec/10_state.md R24, R25); also CRC8's SEL operand (R62: 0 PBUF, 1 FBUF). -/
inductive Buf where
  | pbuf
  | fbuf
deriving DecidableEq, Repr

/-- The twelve commands (R62). -/
inductive Instr where
  /-- CRC8, OP 0x01 (R102): start offset A, byte count B, buffer SEL. -/
  | crc8 (start len : Byte) (sel : Buf)
  /-- PKT_CONSTRUCT, OP 0x10 (R108): type A, flags B, payloadSize C. -/
  | pktConstruct (type flags size : Byte)
  /-- PKT_VALIDATE, OP 0x11 (R111). -/
  | pktValidate
  /-- PKT_GET_TYPE, OP 0x12 (R115). -/
  | pktGetType
  /-- PKT_GET_FLAGS, OP 0x13 (R116). -/
  | pktGetFlags
  /-- PKT_GET_PAYLOAD_SIZE, OP 0x14 (R117). -/
  | pktGetPayloadSize
  /-- FRM_VALIDATE, OP 0x20 (R127). -/
  | frmValidate
  /-- FRM_IS_RESEND, OP 0x21 (R131). -/
  | frmIsResend
  /-- FRM_GET_INDEX, OP 0x22 (R133). -/
  | frmGetIndex
  /-- FRM_BUILD, OP 0x30 (R142): caller flags A, frame index B. -/
  | frmBuild (flags index : Byte)
  /-- FRM_BUILD_RESEND, OP 0x40 (R154). -/
  | frmBuildResend
  /-- FRM_RECONSTRUCT, OP 0x50 (R160). -/
  | frmReconstruct
deriving DecidableEq, Repr

end Sys2Proof
end

