-- ==== Sys2Proof/WellFormed.lean ====
section
/-! DEFINITION. What is checked of data before the block's rules are claimed of it. An `Instr` has no check of its own:
its operands are whole bytes (spec/30_encoding.md R63), so every term of the type is a command. What can be ill formed is
a command WORD (an OP outside R62, or an ignored field that software must write as 0, R64) and an instance's parameters
(spec/00_scope.md R7, R9). -/

namespace Sys2Proof

/-- One row of the opcode map (R62): the OP value and the bits of the word the command reads (OP included). The other
bits are its ignored fields (R64). -/
structure OpcodeRow where
  op : Byte
  used : Word
deriving DecidableEq, Repr

/-- The opcode map of R62 with the operand fields each command takes. -/
def opcodeRows : List OpcodeRow :=
  [⟨0x01#8, 0x01FFFFFF#32⟩, ⟨0x10#8, 0xFFFFFFFF#32⟩, ⟨0x11#8, 0x000000FF#32⟩, ⟨0x12#8, 0x000000FF#32⟩,
   ⟨0x13#8, 0x000000FF#32⟩, ⟨0x14#8, 0x000000FF#32⟩, ⟨0x20#8, 0x000000FF#32⟩, ⟨0x21#8, 0x000000FF#32⟩,
   ⟨0x22#8, 0x000000FF#32⟩, ⟨0x30#8, 0x00FFFFFF#32⟩, ⟨0x40#8, 0x000000FF#32⟩, ⟨0x50#8, 0x000000FF#32⟩]

/-- The row whose OP the word's bits 7:0 hold, if any. -/
def opcodeRowOf (w : Word) : Option OpcodeRow := opcodeRows.find? fun r => r.op == w.extractLsb' 0 8

/-- Check 1 of a command word: its OP is one of R62. -/
def wordOpAssigned (w : Word) : Bool := (opcodeRowOf w).isSome

/-- Check 2 of a command word: its ignored bits are written as 0 (R64). -/
def wordIgnoredZero (w : Word) : Bool :=
  match opcodeRowOf w with
  | some r => w &&& r.used == w
  | none => true

/-- A command word as software should write it (R62, R64). The engine does not check this: an unassigned OP completes
with ILLEGAL_COMMAND and an ignored field is ignored. -/
def wellFormedWord (w : Word) : Bool := wordOpAssigned w && wordIgnoredZero w

/-- Check 1 of the parameters: `CRC_LO[0] xor CRC_HI[0] = 0x00` (R7), without which no unit is self-zeroing (R100). -/
def Params.crcZero (p : Params) : Bool := p.crcLo[0] ^^^ p.crcHi[0] == 0#8

/-- Check 2 of the parameters: BASE is a multiple of 0x200 (R9). -/
def Params.baseAligned (p : Params) : Bool := p.base % 0x200 == 0

/-- The conditions R7 and R9 put on an instance's parameters, but for the bijectivity of `T` (`Machine.CrcInjective`,
Machine/Ops.lean), which R7 assumes for the detection guarantee alone. -/
def Params.wellFormed (p : Params) : Bool := p.crcZero && p.baseAligned

end Sys2Proof
end

