-- ==== Sys2Proof/Decode.lean ====
section
/-! DEFINITION. The decoder of a command word (spec/30_encoding.md R61 to R66), total on all 32-bit words and rejecting by
name, and the encoder written from the same tables. A command is one word, written and latched whole (spec/20_memory.md
R47), so there is no byte order to decode. -/

namespace Sys2Proof

/-- Why a word is no command. -/
inductive DecodeReject where
  /-- The OP field is none of R62's twelve values (R65). The engine completes such a command with ILLEGAL_COMMAND. -/
  | unassignedOpcode (op : Byte)
deriving DecidableEq, Repr

/-- Field OP, bits 7:0 (R61). -/
def opField (w : Word) : Byte := w.extractLsb' 0 8
/-- Field A, bits 15:8 (R61). -/
def aField (w : Word) : Byte := w.extractLsb' 8 8
/-- Field B, bits 23:16 (R61). -/
def bField (w : Word) : Byte := w.extractLsb' 16 8
/-- Field C, bits 31:24 (R61). -/
def cField (w : Word) : Byte := w.extractLsb' 24 8

/-- Operand SEL, bit 24 (R63): 0 selects PBUF, 1 FBUF (R62). -/
def selField (w : Word) : Buf := if w.getLsbD 24 then .fbuf else .pbuf

/-- Decoding of the latched word by its OP field (R62). -/
def decodeWord (w : Word) : Except DecodeReject Instr :=
  match (opField w).toNat with
  | 0x01 => .ok (.crc8 (aField w) (bField w) (selField w))
  | 0x10 => .ok (.pktConstruct (aField w) (bField w) (cField w))
  | 0x11 => .ok .pktValidate
  | 0x12 => .ok .pktGetType
  | 0x13 => .ok .pktGetFlags
  | 0x14 => .ok .pktGetPayloadSize
  | 0x20 => .ok .frmValidate
  | 0x21 => .ok .frmIsResend
  | 0x22 => .ok .frmGetIndex
  | 0x30 => .ok (.frmBuild (aField w) (bField w))
  | 0x40 => .ok .frmBuildResend
  | 0x50 => .ok .frmReconstruct
  | _ => .error (.unassignedOpcode (opField w))

/-- The host's view of the decoder: the command in an instruction of `nbits` bits whose bits are `w`. The block's one
instruction word is 32 bits (R66); the bits above `nbits` are 0. -/
def decodeTableWord (nbits w : Nat) : Option Instr :=
  if nbits ≤ 32 then (decodeWord (BitVec.ofNat 32 (w % 2 ^ nbits))).toOption else none

/-- The word `{C, B, A, OP}` (R61). -/
def packWord (op a b c : Byte) : Word := c ++ b ++ a ++ op

/-- The C operand of CRC8: SEL in bit 0, the ignored bits 7:1 written as 0 (R62, R64). -/
def selByte : Buf → Byte
  | .pbuf => 0x00#8
  | .fbuf => 0x01#8

/-- The word of a command, ignored fields written as 0 (R62, R64). -/
def encode : Instr → Word
  | .crc8 start len sel => packWord 0x01#8 start len (selByte sel)
  | .pktConstruct type flags size => packWord 0x10#8 type flags size
  | .pktValidate => packWord 0x11#8 0#8 0#8 0#8
  | .pktGetType => packWord 0x12#8 0#8 0#8 0#8
  | .pktGetFlags => packWord 0x13#8 0#8 0#8 0#8
  | .pktGetPayloadSize => packWord 0x14#8 0#8 0#8 0#8
  | .frmValidate => packWord 0x20#8 0#8 0#8 0#8
  | .frmIsResend => packWord 0x21#8 0#8 0#8 0#8
  | .frmGetIndex => packWord 0x22#8 0#8 0#8 0#8
  | .frmBuild flags index => packWord 0x30#8 flags index 0#8
  | .frmBuildResend => packWord 0x40#8 0#8 0#8 0#8
  | .frmReconstruct => packWord 0x50#8 0#8 0#8 0#8

end Sys2Proof
end

