-- ==== Sys2Proof/Machine/State.lean ====
section
/-! DEFINITION. The machine's state as plain data: all of spec/10_state.md R18 to R29, the instance's parameters
(spec/00_scope.md R6, R7, R9), and the interleaving of host and engine that spec/20_memory.md R54 calls a run. -/

namespace Sys2Proof.Machine

/-- The failure codes of STATUS.ERR (spec/60_exceptions.md R167). -/
inductive ErrCode where
  | none
  | sizeBounds
  | magic
  | crc
  | lengthBounds
  | illegalCommand
  | range
deriving DecidableEq, Repr

/-- STATUS (R20). ERR is the 4-bit field itself, so its reserved codes can be spoken of. -/
structure Status where
  busy : Bool
  done : Bool
  ok : Bool
  more : Bool
  err : BitVec 4
  value : Byte
deriving DecidableEq, Repr

/-- The bytes of one buffer that have been written, by offset. An offset that is not listed is `unwritten` (R26). -/
abbrev Memory := List Host.Cell

/-- The cells' offsets rise strictly and start at `lo` or above. -/
def Memory.wfFrom (lo : Nat) : Memory → Bool
  | [] => true
  | (a, _) :: m => decide (lo ≤ a) && wfFrom (a + 1) m

/-- The canonical form: offsets strictly rising. An unlisted offset has no value, so no cell equals it. -/
def Memory.wf (m : Memory) : Bool := Memory.wfFrom 0 m

/-- Every listed offset lies below `n`, the buffer's size. -/
def Memory.below (n : Nat) : Memory → Bool
  | [] => true
  | (a, _) :: m => decide (a < n) && below n m

/-- One access of the host to the bus (spec/20_memory.md R43): a bus address, a width in bits, and the data of a write.
A byte write stores the low byte of `data`. -/
inductive Access where
  | read (addr width : Nat)
  | write (addr width : Nat) (data : Word)
deriving DecidableEq, Repr

/-- Whose step comes next in the interleaving (R54): one host access, one whole command of the engine, or the reset
event (spec/70_reset_and_hazards.md R186). -/
inductive Turn where
  | host (a : Access)
  | engine
  | reset
deriving DecidableEq, Repr

/-- Everything the machine holds. CMD holds no value of its own (R19); CONFIG is a function of `params` (R21). -/
@[ext]
structure State where
  /-- The instance's parameters; no step changes them. -/
  params : Params
  /-- STATUS (R20). -/
  status : Status
  /-- LATCH (R22). -/
  latch : Word
  /-- PBUF, the written bytes of offsets 0 to 63 (R24). -/
  pbuf : Memory
  /-- FBUF, the written bytes of offsets 0 to FRAME_SIZE - 1 (R25). -/
  fbuf : Memory
  /-- MODEL'S OWN: the turns still to come, first first (R54, assumption log 4). -/
  turns : List Turn
  /-- MODEL'S OWN: what the block returned to the host's latest read (R199, assumption log 5). -/
  readData : Option Word
deriving DecidableEq, Repr

/-- The model faults of R173. Each ends the run for good (R172) and holds the faulted state: the state in which it was
raised, before the access it replaces or before the command's `finish` (R174), with the buffer bytes the command had
written by then (spec/00_scope.md R11; DEDUCED, safe, assumption log 8). All are safe: a program that reaches one has no proof. -/
inductive Fault where
  /-- Raised by a host or engine read of an unwritten buffer byte (R26); safe. -/
  | unwrittenRead (s : State)
  /-- Raised by a host access of the wrong width or a misaligned register access (R43); safe. -/
  | badAccess (s : State)
  /-- Raised by a host access to a reserved offset of the window (R44); safe. -/
  | reservedAccess (s : State)
  /-- Raised by a host write to CMD while BUSY = 1 (R193); safe. -/
  | commandWhileBusy (s : State)
  /-- Raised by a host buffer access that conflicts with the running command (R194); safe. -/
  | bufferHazard (s : State)
  /-- Raised by FRM_BUILD when its slice would pass PBUF offset 63 (R144); safe. -/
  | frameSourceOverrun (s : State)
deriving DecidableEq, Repr

/-- What the model gives no meaning to. -/
inductive Refusal where
  /-- Raised by an arm of exec for a command without a meaning; none is left; safe. -/
  | notModelled (mnemonic : String)
  /-- Raised by a host access to a bus address outside the block's 512-byte window: it reaches another device, of which
  the spec says nothing (assumption log 6); safe. -/
  | outsideWindow
deriving DecidableEq, Repr

/-- STATUS with every field 0 (R29). -/
def Status.zero : Status where
  busy := false
  done := false
  ok := false
  more := false
  err := 0#4
  value := 0#8

/-- The state right after reset of the instance with parameters `p` (R29, R186). -/
def State.resetWith (p : Params) : State where
  params := p
  status := .zero
  latch := 0#32
  pbuf := []
  fbuf := []
  turns := []
  readData := none

/-- The default instance right after reset (R29; R6, R7 for the defaults). -/
def State.reset : State := State.resetWith Params.default

end Sys2Proof.Machine
end

