-- ==== Sys2Proof/Machine/Ops.lean ====
section
/-! DEFINITION. The named operations every command and host access is written with: one byte of a buffer, ranges of bytes,
the CRC function, issuing and completing a command, the failing completion (the spec has no exception entry: a failure is a
completion with OK = 0, spec/60_exceptions.md R166, R176), and the reset event. -/

namespace Sys2Proof.Machine

/-- What a step answers. -/
abbrev Result := Host.Outcome State Fault Refusal

/-- The byte listed at an offset. -/
def Memory.get? : Memory → Nat → Option Byte
  | [], _ => none
  | (a, v) :: m, o => if o = a then some v else Memory.get? m o

/-- Store a byte, keeping the offsets strictly rising. -/
def Memory.put : Memory → Nat → Byte → Memory
  | [], o, v => [(o, v)]
  | (a, w) :: m, o, v =>
    if o < a then (o, v) :: (a, w) :: m else if o = a then (o, v) :: m else (a, w) :: Memory.put m o v

/-- The size of a buffer: PBUF 64, FBUF FRAME_SIZE (R24, R25). -/
def State.size (s : State) : Buf → Nat
  | .pbuf => maxTotal
  | .fbuf => s.params.frameSize

/-- The written bytes of a buffer. -/
def State.cells (s : State) : Buf → Memory
  | .pbuf => s.pbuf
  | .fbuf => s.fbuf

/-- Replace the written bytes of a buffer. -/
def State.setCells (s : State) (b : Buf) (m : Memory) : State :=
  match b with
  | .pbuf => { s with pbuf := m }
  | .fbuf => { s with fbuf := m }

/-- The value of one buffer byte: none when it is `unwritten` (R26) or the buffer has no such byte. -/
def State.byte (s : State) (b : Buf) (o : Nat) : Option Byte :=
  if o < s.size b then (s.cells b).get? o else none

/-- `MemRead(b + o, 1)` (R11): an `unwritten` byte is UnwrittenRead, an offset outside the buffer FrameSourceOverrun;
either fault holds the state that was read (R174). -/
def State.memRead (s : State) (b : Buf) (o : Nat) : Except Fault Byte :=
  if o < s.size b then
    match (s.cells b).get? o with
    | some v => .ok v
    | none => .error (.unwrittenRead s)
  else .error (.frameSourceOverrun s)

/-- `MemWrite(b + o, 1, v)` (R11). No command's rule and no host access writes outside the buffer (R52, R41), where
there is no byte to store. -/
def State.memWrite (s : State) (b : Buf) (o : Nat) (v : Byte) : State :=
  if o < s.size b then s.setCells b ((s.cells b).put o v) else s

/-- `MemRead` at offsets `o, o + 1, …`, `n` of them, stopping at the first fault. -/
def State.readRange (s : State) (b : Buf) : (o n : Nat) → Except Fault (List Byte)
  | _, 0 => .ok []
  | o, n + 1 =>
    match s.memRead b o with
    | .error f => .error f
    | .ok v =>
      match s.readRange b (o + 1) n with
      | .error f => .error f
      | .ok vs => .ok (v :: vs)

/-- `MemWrite` of the bytes at offsets `o, o + 1, …` in order. -/
def State.writeBytes (s : State) (b : Buf) : (o : Nat) → List Byte → State
  | _, [] => s
  | o, v :: vs => (s.memWrite b o v).writeBytes b (o + 1) vs

/-- `MemWrite(dst + o + k, 1, MemRead(src + i + k, 1))` for `k` from 0 to `n - 1`. A fault of a read holds the state in
which the bytes before it are copied (R11). -/
def State.copyRange (s : State) (src : Buf) (i : Nat) (dst : Buf) (o : Nat) : (n : Nat) → Except Fault State
  | 0 => .ok s
  | n + 1 =>
    match s.memRead src i with
    | .error f => .error f
    | .ok v => (s.memWrite dst o v).copyRange src (i + 1) dst (o + 1) n

/-- The low nibble `x[3:0]` as a table index. -/
def lowNibble (x : Byte) : Fin 16 := ⟨x.toNat % 16, Nat.mod_lt _ (by decide)⟩

/-- The high nibble `x[7:4]` as a table index. -/
def highNibble (x : Byte) : Fin 16 := ⟨x.toNat / 16 % 16, Nat.mod_lt _ (by decide)⟩

/-- `T(x) = CRC_LO[x[3:0]] xor CRC_HI[x[7:4]]` (spec/40_crc.md R98). -/
def crcT (p : Params) (x : Byte) : Byte := p.crcLo.get (lowNibble x) ^^^ p.crcHi.get (highNibble x)

/-- The running value after a list of bytes, left to right: `r <- T(r xor b)` (R98). -/
def crcRun (p : Params) (r : Byte) (bs : List Byte) : Byte := bs.foldl (fun r b => crcT p (r ^^^ b)) r

/-- The CRC of a list of bytes: from CRC_INIT, with no final xor (R98). -/
def crcOf (p : Params) (bs : List Byte) : Byte := crcRun p p.crcInit bs

/-- `T` is a bijection on bytes (R7, R101); on a finite type that is injectivity. -/
def CrcInjective (p : Params) : Prop := ∀ x y : Byte, crcT p x = crcT p y → x = y

/-- `crc8(B, s, n)` of R98: reads the range, so an unwritten byte faults. -/
def State.crc8 (s : State) (b : Buf) (start n : Nat) : Except Fault Byte :=
  match s.readRange b start n with
  | .error f => .error f
  | .ok bs => .ok (crcOf s.params bs)

/-- Go on with a value, or raise the fault that reading it raised (R172). -/
def orFault {α : Type} (r : Except Fault α) (k : α → Result) : Result :=
  match r with
  | .error f => .fault f
  | .ok v => k v

/-- The code of a failure (spec/60_exceptions.md R167). -/
def ErrCode.code : ErrCode → BitVec 4
  | .none => 0#4
  | .sizeBounds => 1#4
  | .magic => 2#4
  | .crc => 3#4
  | .lengthBounds => 4#4
  | .illegalCommand => 5#4
  | .range => 6#4

/-- The STATUS that `finish(ok, more, err, value)` leaves (R11, R31). -/
def Status.finished (ok more : Bool) (e : ErrCode) (v : Byte) : Status where
  busy := false
  done := true
  ok := ok
  more := more
  err := e.code
  value := v

/-- The STATUS that issuing a command leaves (R30). -/
def Status.issued : Status where
  busy := true
  done := false
  ok := false
  more := false
  err := 0#4
  value := 0#8

/-- `finish(ok, more, err, value)` (R11, R31). -/
def State.finish (s : State) (ok more : Bool) (e : ErrCode) (v : Byte) : Result :=
  .next { s with status := Status.finished ok more e v }

/-- A failing completion: `finish(0, 0, err, 0x00)` (R166). -/
def State.fail (s : State) (e : ErrCode) : Result := s.finish false false e 0#8

/-- The engine's step on an unassigned opcode (R169). -/
def illegalCommand (s : State) : Result := s.fail .illegalCommand

/-- The issue of a command (R30): LATCH takes the word, STATUS becomes BUSY and nothing else. -/
def State.issue (s : State) (w : Word) : State := { s with latch := w, status := .issued }

/-- The reset event (R186): every piece of state to its reset value, the parameters (and so CONFIG) unchanged. The turns
to come are no state of the block and stay. -/
def State.resetEvent (s : State) : State := { State.resetWith s.params with turns := s.turns }

/-- The end of a frame: the footer magic when TAGGED, then the CRC over every byte before the CRC byte, stored at
FRAME_CRC_OFFSET (R142, R154; spec/90_conflicts.md C3). -/
def State.sealFrame (s : State) : Except Fault State :=
  let s₁ :=
    match s.params.footerRev with
    | .tagged => s.memWrite .fbuf footerMagicOffset frmFooterMagic
    | .plain => s
  match s₁.crc8 .fbuf 0 s₁.params.frameCrcOffset with
  | .error f => .error f
  | .ok c => .ok (s₁.memWrite .fbuf s₁.params.frameCrcOffset c)

end Sys2Proof.Machine
end

