-- ==== Sys2Proof/Machine/Operands.lean ====
section
/-! DEFINITION. What the commands make of their operand bytes and of the length and index bytes they read: sizes, frame
counts, slice offsets. An operand is the whole byte, read unsigned (spec/30_encoding.md R63); the arithmetic is on natural
numbers without wrap (spec/00_scope.md R10). -/

namespace Sys2Proof.Machine

/-- The length byte of a packet with `p` payload bytes: header, payload and footer (spec/41_packet_codec.md R108). -/
def packetLength (p : Byte) : Byte := BitVec.ofNat 8 (p.toNat + minTotal)

/-- `(L - 5) mod 256` (R117). -/
def payloadSize (l : Byte) : Byte := l - 5#8

/-- `frameCount = ceil(L / 16) = (L + 15) div 16` (spec/30_encoding.md R85, spec/43_segmenter.md R142). -/
def frameCount (l : Byte) : Nat := (l.toNat + 15) / 16

/-- The offset of slice `i` in PBUF: `16 * i` (R142, R160). -/
def sliceOffset (i : Byte) : Nat := frmPayloadLen * i.toNat

/-- How many bytes of slice `i` lie below a bound: those `k < 16` with `16 * i + k < bound`. -/
def sliceCount (i : Byte) (bound : Nat) : Nat := min frmPayloadLen (bound - sliceOffset i)

/-- The frame payload of slice `i` of a packet with length byte `l` (R142): the packet bytes below `l`, then zeros. A
byte below `l` at PBUF offset 64 or more raises FrameSourceOverrun (R144). -/
def State.slice (s : State) (i l : Byte) : Except Fault (List Byte) :=
  match s.readRange .pbuf (sliceOffset i) (sliceCount i l.toNat) with
  | .error f => .error f
  | .ok bs => .ok (bs ++ List.replicate (frmPayloadLen - bs.length) 0#8)

end Sys2Proof.Machine
end

