-- ==== Sys2Proof/Machine/Flags.lean ====
section
/-! DEFINITION. Every flag computation: the STATUS and CONFIG words as the host reads them (spec/10_state.md R20, R21), and
the frame flag bits the core reads and writes (spec/30_encoding.md R83). -/

namespace Sys2Proof.Machine

/-- STATUS as a word (R20): BUSY 0, DONE 1, OK 2, MORE 3, ERR 7:4, VALUE 15:8, and 0 in the reserved bits 31:16. -/
def Status.word (st : Status) : Word :=
  0#16 ++ st.value ++ st.err ++ BitVec.ofBool st.more ++ BitVec.ofBool st.ok ++ BitVec.ofBool st.done
    ++ BitVec.ofBool st.busy

/-- CONFIG as a word (R21): TAGGED 0, FRAME_SIZE 15:8, MAX_TOTAL 23:16, FRM_PAYLOAD_LEN 31:24, reserved bits 7:1 zero. -/
def configWord (p : Params) : Word :=
  BitVec.ofNat 8 frmPayloadLen ++ BitVec.ofNat 8 maxTotal ++ BitVec.ofNat 8 p.frameSize ++ 0#7
    ++ BitVec.ofBool (p.footerRev == .tagged)

/-- `outMoreFrames` of FRM_BUILD: `i < frameCount - 1` over the integers, so false when the count is 0 (R147). -/
def moreToBuild (i l : Byte) : Bool := decide (i.toNat + 1 < frameCount l)

/-- The frame is the packet's last: `i = frameCount - 1` (R143). -/
def lastFrame (i l : Byte) : Bool := decide (i.toNat + 1 = frameCount l)

/-- The flags byte FRM_BUILD writes: the caller's with TransactionEnd forced on in the last frame and off in the others
(R142, R143, R146). -/
def frameFlags (fin : Byte) (last : Bool) : Byte := if last then fin ||| frmTE else fin &&& ~~~frmTE

/-- TransactionEnd is set in a flags byte (R160). -/
def transactionEnd (fl : Byte) : Bool := fl &&& frmTE != 0#8

/-- RequestResend is set in a flags byte (R131). -/
def requestResend (fl : Byte) : Bool := fl &&& frmRR != 0#8

end Sys2Proof.Machine
end

