-- ==== Sys2Proof/Machine/Crc.lean ====
section
/-! DEFINITION. The CRC8 command (spec/40_crc.md R102). -/

namespace Sys2Proof.Machine

/-- CRC8 (R102): RANGE when `s + n` passes the selected buffer's size, with no byte read; else the CRC in VALUE. -/
def execCrc8 (start len : Byte) (sel : Buf) (s : State) : Result :=
  if start.toNat + len.toNat > s.size sel then s.fail .range
  else orFault (s.crc8 sel start.toNat len.toNat) fun v => s.finish true false .none v

end Sys2Proof.Machine
end

