-- ==== Sys2Proof/Machine/Frame.lean ====
section
/-! DEFINITION. The frame codec's commands (spec/42_frame_codec.md). -/

namespace Sys2Proof.Machine

/-- The last check of FRM_VALIDATE: the full-frame CRC is zero (R127). -/
def checkFrameCrc (s : State) : Result :=
  orFault (s.crc8 .fbuf 0 s.params.frameSize) fun c => if c ≠ 0#8 then s.fail .crc else s.finish true false .none 0#8

/-- FRM_VALIDATE (R127): header magic, then index, then footer magic (TAGGED), then CRC; the first failing check is
reported (R170). -/
def execFrmValidate (s : State) : Result :=
  orFault (s.memRead .fbuf 0) fun m =>
    if m ≠ frmMagic then s.fail .magic
    else orFault (s.memRead .fbuf 1) fun i =>
      if i.toNat ≥ maxFrames then s.fail .sizeBounds
      else
        match s.params.footerRev with
        | .tagged =>
          orFault (s.memRead .fbuf footerMagicOffset) fun fm =>
            if fm ≠ frmFooterMagic then s.fail .magic else checkFrameCrc s
        | .plain => checkFrameCrc s

/-- FRM_IS_RESEND (R131): the predicate is in VALUE, OK is 1. -/
def execFrmIsResend (s : State) : Result :=
  orFault (s.memRead .fbuf 2) fun fl => s.finish true false .none (if requestResend fl then 1#8 else 0#8)

/-- FRM_GET_INDEX (R133). -/
def execFrmGetIndex (s : State) : Result := orFault (s.memRead .fbuf 1) fun v => s.finish true false .none v

end Sys2Proof.Machine
end

