-- ==== Sys2Proof/Machine/Packet.lean ====
section
/-! DEFINITION. The packet codec's commands (spec/41_packet_codec.md). -/

namespace Sys2Proof.Machine

/-- PKT_CONSTRUCT (R108): SIZE_BOUNDS with nothing read or written when `p > 59`; else the header, then the CRC over
header and payload as the footer. -/
def execPktConstruct (type flags size : Byte) (s : State) : Result :=
  if size.toNat > maxPayload then s.fail .sizeBounds
  else
    let s₁ := s.writeBytes .pbuf 0 [pktMagic, type, flags, packetLength size]
    orFault (s₁.crc8 .pbuf 0 (pktHeaderSize + size.toNat)) fun c =>
      (s₁.memWrite .pbuf (pktHeaderSize + size.toNat) c).finish true false .none 0#8

/-- PKT_VALIDATE (R111): magic, then length, then CRC; the first failing check is reported (R170). -/
def execPktValidate (s : State) : Result :=
  orFault (s.memRead .pbuf 0) fun m =>
    if m ≠ pktMagic then s.fail .magic
    else orFault (s.memRead .pbuf 3) fun l =>
      if l.toNat < minTotal ∨ l.toNat > maxTotal then s.fail .lengthBounds
      else orFault (s.crc8 .pbuf 0 l.toNat) fun c =>
        if c ≠ 0#8 then s.fail .crc else s.finish true false .none 0#8

/-- PKT_GET_TYPE (R115). -/
def execPktGetType (s : State) : Result := orFault (s.memRead .pbuf 1) fun v => s.finish true false .none v

/-- PKT_GET_FLAGS (R116). -/
def execPktGetFlags (s : State) : Result := orFault (s.memRead .pbuf 2) fun v => s.finish true false .none v

/-- PKT_GET_PAYLOAD_SIZE (R117). -/
def execPktGetPayloadSize (s : State) : Result :=
  orFault (s.memRead .pbuf 3) fun l => s.finish true false .none (payloadSize l)

end Sys2Proof.Machine
end

