-- ==== Sys2Proof/Machine/Reassembler.lean ====
section
/-! DEFINITION. The reassembler's command (spec/45_reassembler.md). -/

namespace Sys2Proof.Machine

/-- FRM_RECONSTRUCT (R160): the payload bytes whose destination lies below 64 go to PBUF at `16 * index`; an index of 4
or more reads and writes none. MORE is the negation of TransactionEnd. -/
def execFrmReconstruct (s : State) : Result :=
  orFault (s.memRead .fbuf 1) fun i =>
    orFault (s.memRead .fbuf 2) fun fl =>
      orFault (s.copyRange .fbuf frmPayloadOffset .pbuf (sliceOffset i) (sliceCount i maxTotal)) fun s₁ =>
        s₁.finish true (!transactionEnd fl) .none 0#8

end Sys2Proof.Machine
end

