-- ==== Sys2Proof/Machine/Resend.lean ====
section
/-! DEFINITION. The resend signal's command (spec/44_resend_signal.md). -/

namespace Sys2Proof.Machine

/-- FRM_BUILD_RESEND (R154): header with index 0 and RequestResend alone, then footer and CRC around the payload already
in FBUF. -/
def execFrmBuildResend (s : State) : Result :=
  orFault (s.writeBytes .fbuf 0 [frmMagic, 0#8, frmRR]).sealFrame fun s₁ => s₁.finish true false .none 0#8

end Sys2Proof.Machine
end

