-- ==== Sys2Proof/Machine/Segmenter.lean ====
section
/-! DEFINITION. The segmenter's command (spec/43_segmenter.md). -/

namespace Sys2Proof.Machine

/-- FRM_BUILD (R142): SIZE_BOUNDS with no write when `i >= frameCount`; else header, slice, footer and CRC into FBUF. The
slice is read whole before the first write. -/
def execFrmBuild (flags index : Byte) (s : State) : Result :=
  orFault (s.memRead .pbuf 3) fun l =>
    if index.toNat ≥ frameCount l then s.finish false (moreToBuild index l) .sizeBounds 0#8
    else orFault (s.slice index l) fun d =>
      let hdr := [frmMagic, index, frameFlags flags (lastFrame index l)]
      orFault (s.writeBytes .fbuf 0 (hdr ++ d)).sealFrame fun s₁ =>
        s₁.finish true (moreToBuild index l) .none 0#8

end Sys2Proof.Machine
end

