-- ==== Sys2Proof/Machine/Dispatch.lean ====
section
/-! DEFINITION. One arm per command (spec/30_encoding.md R62). -/

namespace Sys2Proof.Machine

def exec (i : Instr) (s : State) : Host.Outcome State Fault Refusal :=
  match i with
  | .crc8 start len sel => Sys2Proof.Machine.execCrc8 start len sel s
  | .pktConstruct type flags size => Sys2Proof.Machine.execPktConstruct type flags size s
  | .pktValidate => Sys2Proof.Machine.execPktValidate s
  | .pktGetType => Sys2Proof.Machine.execPktGetType s
  | .pktGetFlags => Sys2Proof.Machine.execPktGetFlags s
  | .pktGetPayloadSize => Sys2Proof.Machine.execPktGetPayloadSize s
  | .frmValidate => Sys2Proof.Machine.execFrmValidate s
  | .frmIsResend => Sys2Proof.Machine.execFrmIsResend s
  | .frmGetIndex => Sys2Proof.Machine.execFrmGetIndex s
  | .frmBuild flags index => Sys2Proof.Machine.execFrmBuild flags index s
  | .frmBuildResend => Sys2Proof.Machine.execFrmBuildResend s
  | .frmReconstruct => Sys2Proof.Machine.execFrmReconstruct s

end Sys2Proof.Machine
end

