-- ==== Sys2Proof/Machine/Engine.lean ====
section
/-! DEFINITION. The engine's step (spec/10_state.md R31) and the buffers a running command reads and writes
(spec/70_reset_and_hazards.md R194). -/

namespace Sys2Proof.Machine

/-- The engine decodes LATCH and performs the command whole, or the unassigned opcode's completion (R31, R169). -/
def engineCommand (s : State) : Result :=
  match decodeWord s.latch with
  | .ok i => exec i s
  | .error _ => illegalCommand s

/-- The engine's turn: its one step while BUSY = 1, and nothing while BUSY = 0 (R16, R31). -/
def engineTurn (s : State) : Result := if s.status.busy then engineCommand s else .next s

/-- The read sets of R194. -/
def readSet : Instr → List Buf
  | .crc8 _ _ sel => [sel]
  | .pktConstruct _ _ _ => [.pbuf]
  | .pktValidate => [.pbuf]
  | .pktGetType => [.pbuf]
  | .pktGetFlags => [.pbuf]
  | .pktGetPayloadSize => [.pbuf]
  | .frmValidate => [.fbuf]
  | .frmIsResend => [.fbuf]
  | .frmGetIndex => [.fbuf]
  | .frmBuild _ _ => [.pbuf]
  | .frmBuildResend => [.fbuf]
  | .frmReconstruct => [.fbuf]

/-- The write sets of R194. -/
def writeSet : Instr → List Buf
  | .crc8 _ _ _ => []
  | .pktConstruct _ _ _ => [.pbuf]
  | .pktValidate => []
  | .pktGetType => []
  | .pktGetFlags => []
  | .pktGetPayloadSize => []
  | .frmValidate => []
  | .frmIsResend => []
  | .frmGetIndex => []
  | .frmBuild _ _ => [.fbuf]
  | .frmBuildResend => [.fbuf]
  | .frmReconstruct => [.pbuf]

/-- The read set of the command in LATCH; an unassigned OP has none. -/
def latchReads (w : Word) (b : Buf) : Bool :=
  match decodeWord w with
  | .ok i => (readSet i).contains b
  | .error _ => false

/-- The write set of the command in LATCH; an unassigned OP has none. -/
def latchWrites (w : Word) (b : Buf) : Bool :=
  match decodeWord w with
  | .ok i => (writeSet i).contains b
  | .error _ => false

/-- A host read of buffer `b` conflicts with the running command (R194). -/
def State.readHazard (s : State) (b : Buf) : Bool := s.status.busy && latchWrites s.latch b

/-- A host write of buffer `b` conflicts with the running command (R194). -/
def State.writeHazard (s : State) (b : Buf) : Bool :=
  s.status.busy && (latchReads s.latch b || latchWrites s.latch b)

end Sys2Proof.Machine
end

