-- ==== Sys2Proof/Machine/Window.lean ====
section
/-! DEFINITION. The host's side: the window map and the admitted accesses (spec/20_memory.md R41 to R44), what each access
does (R51; spec/10_state.md R19 to R21, R30; spec/70_reset_and_hazards.md R193, R194), and the host steps and sequences of
spec/30_encoding.md R67, R68 as turns. -/

namespace Sys2Proof.Machine

/-- What an offset of the window belongs to (R41). -/
inductive Region where
  | cmd
  | status
  | config
  | buffer (b : Buf) (i : Nat)
  | reserved
deriving DecidableEq, Repr

/-- The window map (R41). -/
def regionAt (p : Params) (off : Nat) : Region :=
  if off < 0x004 then .cmd
  else if off < 0x008 then .status
  else if off < 0x00C then .config
  else if 0x100 ≤ off ∧ off < 0x100 + maxTotal then .buffer .pbuf (off - 0x100)
  else if 0x180 ≤ off ∧ off < 0x180 + p.frameSize then .buffer .fbuf (off - 0x180)
  else .reserved

/-- The offset of a bus address in the window of 512 bytes at BASE; none outside it (R41). -/
def windowOffset (p : Params) (addr : Nat) : Option Nat :=
  if p.base ≤ addr ∧ addr < p.base + 0x200 then some (addr - p.base) else none

/-- Admission of an access by its offset and width in bits (R43, R44): a reserved offset faults whatever the width, a
buffer takes 8 bits, a register 32 bits at its own offset. A fault replaces the access, so it holds the state before it
(R174). -/
def State.admission (s : State) (off width : Nat) : Except Fault Region :=
  match regionAt s.params off with
  | .reserved => .error (.reservedAccess s)
  | .buffer b i => if width = 8 then .ok (.buffer b i) else .error (.badAccess s)
  | .cmd => if width = 32 ∧ off % 4 = 0 then .ok .cmd else .error (.badAccess s)
  | .status => if width = 32 ∧ off % 4 = 0 then .ok .status else .error (.badAccess s)
  | .config => if width = 32 ∧ off % 4 = 0 then .ok .config else .error (.badAccess s)

/-- What a read returns to the host. -/
def State.respond (s : State) (w : Word) : State := { s with readData := some w }

/-- An admitted host read (R19 to R21, R51): no side effect; a buffer read may conflict with the running command (R194)
or meet an unwritten byte (R26). -/
def hostRead (r : Region) (s : State) : Result :=
  match r with
  | .cmd => .next (s.respond 0#32)
  | .status => .next (s.respond s.status.word)
  | .config => .next (s.respond (configWord s.params))
  | .buffer b i =>
    if s.readHazard b then .fault (.bufferHazard s)
    else orFault (s.memRead b i) fun v => .next (s.respond (v.setWidth 32))
  | .reserved => .fault (.reservedAccess s)

/-- An admitted host write (R19, R30, R51): CMD issues or faults while busy (R193), STATUS and CONFIG ignore it, a buffer
byte is stored unless it conflicts with the running command (R194). -/
def hostWrite (r : Region) (d : Word) (s : State) : Result :=
  match r with
  | .cmd => if s.status.busy then .fault (.commandWhileBusy s) else .next (s.issue d)
  | .status => .next s
  | .config => .next s
  | .buffer b i => if s.writeHazard b then .fault (.bufferHazard s) else .next (s.memWrite b i (d.setWidth 8))
  | .reserved => .fault (.reservedAccess s)

/-- The bus address of an access. -/
def Access.addr : Access → Nat
  | .read addr _ => addr
  | .write addr _ _ => addr

/-- The width of an access in bits. -/
def Access.width : Access → Nat
  | .read _ width => width
  | .write _ width _ => width

/-- One access of the host (R43, R44, R50); outside the window it is not the block's. -/
def hostAccess (a : Access) (s : State) : Result :=
  match windowOffset s.params a.addr with
  | none => .refused .outsideWindow
  | some off =>
    orFault (s.admission off a.width) fun r =>
      match a with
      | .read _ _ => hostRead r s
      | .write _ _ d => hostWrite r d s

/-- One turn of the interleaving (R54). -/
def takeTurn (t : Turn) (s : State) : Result :=
  match t with
  | .host a => hostAccess a s
  | .engine => engineTurn s
  | .reset => .next s.resetEvent

/-- The window offset of byte `i` of a buffer (R41). -/
def bufferOffset (b : Buf) (i : Nat) : Nat :=
  match b with
  | .pbuf => 0x100 + i
  | .fbuf => 0x180 + i

/-- `sw CMD, w` (R67). -/
def swCmd (p : Params) (w : Word) : Turn := .host (.write p.base 32 w)
/-- `lw r, STATUS` (R67). -/
def lwStatus (p : Params) : Turn := .host (.read (p.base + 0x004) 32)
/-- `lw r, CONFIG` (R67). -/
def lwConfig (p : Params) : Turn := .host (.read (p.base + 0x008) 32)
/-- `sb b[i], v` (R67). -/
def sb (p : Params) (b : Buf) (i : Nat) (v : Byte) : Turn :=
  .host (.write (p.base + bufferOffset b i) 8 (v.setWidth 32))
/-- `lb r, b[i]` (R67). -/
def lb (p : Params) (b : Buf) (i : Nat) : Turn := .host (.read (p.base + bufferOffset b i) 8)
/-- `sbs b[i], v0, v1, …` (R68). -/
def sbs (p : Params) (b : Buf) : Nat → List Byte → List Turn
  | _, [] => []
  | i, v :: vs => sb p b i v :: sbs p b (i + 1) vs
/-- `run <command>` (R68) in the interleaving where the host polls STATUS `polls` times before the engine's step and once
after it. -/
def run (p : Params) (i : Instr) (polls : Nat) : List Turn :=
  swCmd p (encode i) :: (List.replicate polls (lwStatus p) ++ [.engine, lwStatus p])

end Sys2Proof.Machine
end

