-- ==== Sys2Proof/Machine/Step.lean ====
section
/-! DEFINITION. One step of the machine: the next turn of the interleaving (spec/20_memory.md R54). -/

namespace Sys2Proof.Machine

/-- One step. The first turn of the list is taken. With no turn left the engine steps if it can (weak fairness,
spec/70_reset_and_hazards.md R190), and an idle block stays as it is (spec/60_exceptions.md R183). -/
def step (s : State) : Host.Outcome State Fault Refusal :=
  match s.turns with
  | [] => engineTurn s
  | t :: ts => takeTurn t { s with turns := ts }

/-- `s` with the instruction issued as a CMD write issues it (spec/10_state.md R30) and the engine next in turn. `nbits`
is at most 32 (spec/30_encoding.md R66); the bits above it are 0. -/
def State.withFetchWord (s : State) (nbits w : Nat) : State :=
  let issued := s.issue (BitVec.ofNat 32 (w % 2 ^ nbits))
  match s.turns with
  | [] => issued
  | ts => { issued with turns := .engine :: ts }

end Sys2Proof.Machine
end

