-- ==== Sys2Proof/Safety.lean ====
section
/-! DEFINITION. The terms in which claims about the block are stated: the invariant every step keeps, what a buffer holds,
the wire formats of spec/30_encoding.md R76 to R80, and the delivery of frames of spec/45_reassembler.md R162. -/

namespace Sys2Proof.Machine

/-- What STATUS can hold: BUSY and DONE exclude each other and nothing else is set without DONE (R20, R30, R32); ERR is
0 exactly when OK is 1 (R20, R166); MORE and VALUE come only with OK (R20, R142, R166); ERR is no reserved code (R167). -/
def Status.coherent (st : Status) : Bool :=
  !(st.busy && st.done) && (st.done || (!st.ok && st.err == 0#4)) && (!st.done || (st.ok == (st.err == 0#4)))
    && (st.ok || (!st.more && st.value == 0#8)) && decide (st.err.toNat ≤ 6)

/-- The invariant of the machine: STATUS is coherent, and both buffers are in canonical form and list no offset outside
the buffer. -/
abbrev State.Inv (s : State) : Prop :=
  s.status.coherent = true ∧ s.pbuf.wf = true ∧ s.pbuf.below maxTotal = true ∧ s.fbuf.wf = true
    ∧ s.fbuf.below s.params.frameSize = true

/-- The faulted state of a fault (spec/60_exceptions.md R172, R174). -/
def Fault.state : Fault → State
  | .unwrittenRead s => s
  | .badAccess s => s
  | .reservedAccess s => s
  | .commandWhileBusy s => s
  | .bufferHazard s => s
  | .frameSourceOverrun s => s

/-- The fault of the same name (R173) with another faulted state. -/
def Fault.withState (f : Fault) (s : State) : Fault :=
  match f with
  | .unwrittenRead _ => .unwrittenRead s
  | .badAccess _ => .badAccess s
  | .reservedAccess _ => .reservedAccess s
  | .commandWhileBusy _ => .commandWhileBusy s
  | .bufferHazard _ => .bufferHazard s
  | .frameSourceOverrun _ => .frameSourceOverrun s

/-- STATUS after a successful completion, with its MORE and VALUE (R20, R31). -/
def Status.success (more : Bool) (v : Byte) : Status := ⟨false, true, true, more, 0#4, v⟩

/-- STATUS after a failing completion, with its ERR code (R20, R31, R166). -/
def Status.failure (code : BitVec 4) : Status := ⟨false, true, false, false, code, 0#8⟩

/-- The buffer holds the bytes `bs` from offset `o` on, all of them written. -/
def State.Holds (s : State) (b : Buf) (o : Nat) (bs : List Byte) : Prop :=
  ∀ k, k < bs.length → s.byte b (o + k) = bs[k]?

/-- Some byte of the `n` from offset `o` on, all inside the buffer, is `unwritten`. -/
def State.SomeUnwritten (s : State) (b : Buf) (o n : Nat) : Prop :=
  o + n ≤ s.size b ∧ ∃ k, k < n ∧ s.byte b (o + k) = none

/-- A packet (R76): header, payload, and the CRC over both. -/
def packetBytes (p : Params) (type flags : Byte) (payload : List Byte) : List Byte :=
  let body := [0xAC#8, type, flags, BitVec.ofNat 8 (payload.length + 5)] ++ payload
  body ++ [crcOf p body]

/-- A frame (R78, R79): header, payload, footer magic when TAGGED, and the CRC over every byte before it. -/
def frameBytes (p : Params) (index flags : Byte) (payload : List Byte) : List Byte :=
  let body := [0xAE#8, index, flags] ++ payload ++ (if p.footerRev = .tagged then [0xAF#8] else [])
  body ++ [crcOf p body]

/-- `bs` is a valid packet (R77). -/
def ValidPacketBytes (p : Params) (bs : List Byte) : Prop :=
  bs[0]? = some 0xAC#8 ∧ bs[3]? = some (BitVec.ofNat 8 bs.length) ∧ 5 ≤ bs.length ∧ bs.length ≤ 64 ∧ crcOf p bs = 0#8

/-- `bs` is a valid frame (R80). -/
def ValidFrameBytes (p : Params) (bs : List Byte) : Prop :=
  bs.length = p.frameSize ∧ bs[0]? = some 0xAE#8 ∧ (∃ i, bs[1]? = some i ∧ i.toNat < 4)
    ∧ (p.footerRev = .tagged → bs[19]? = some 0xAF#8) ∧ crcOf p bs = 0#8

/-- PBUF holds a valid packet (R77). -/
def State.ValidPacket (s : State) : Prop := ∃ bs, s.Holds .pbuf 0 bs ∧ ValidPacketBytes s.params bs

/-- FBUF holds a valid frame (R80). -/
def State.ValidFrame (s : State) : Prop := ∃ bs, s.Holds .fbuf 0 bs ∧ ValidFrameBytes s.params bs

/-- FRM_BUILD is issued and performed for `n` indices from `i` on, each in the state the one before left, from `s` to `s'`:
every one ends with OK = 1, and MORE is 1 and TransactionEnd clear exactly for the indices before the last of the `count`
frames (R150). -/
def BuildsInOrder (flags : Byte) (count : Nat) : Nat → Nat → State → State → Prop
  | _, 0, s, s' => s' = s
  | i, n + 1, s, s' =>
    ∃ t fl, exec (.frmBuild flags (BitVec.ofNat 8 i)) (s.issue (encode (.frmBuild flags (BitVec.ofNat 8 i)))) = .next t
      ∧ t.status.ok = true ∧ t.status.more = decide (i + 1 ≠ count) ∧ t.byte .fbuf 2 = some fl
      ∧ fl.getLsbD 1 = decide (i + 1 = count) ∧ BuildsInOrder flags count (i + 1) n t s'

/-- The frames with the listed indices of the packet in `snd` are built with FRM_BUILD, delivered unchanged into FBUF of the
receiver, validated and reassembled, in the listed order, taking the receiver from `r` to `r'`; every FRM_VALIDATE ends
with OK = 1, and MORE is 1 exactly for the frames before the last of the `count` frames (R162). -/
def Delivers (snd : State) (flags : Byte) (count : Nat) : List Nat → State → State → Prop
  | [], r, r' => r' = r
  | i :: is, r, r' =>
    ∃ f v t, exec (.frmBuild flags (BitVec.ofNat 8 i)) snd = .next f ∧ f.status.ok = true
      ∧ exec .frmValidate { r with fbuf := f.fbuf } = .next v ∧ v.status.ok = true
      ∧ exec .frmReconstruct v = .next t ∧ t.status.more = decide (i + 1 < count)
      ∧ Delivers snd flags count is t r'

end Sys2Proof.Machine
end

