-- ==== Sys2Proof/Certificates/Slice0/Obligations.lean ====
section
/-! DEFINITION. The statements for the provers, from the numbered rules of spec/. Every statement holds for every instance
(`State.params` is any record of parameters) unless it says otherwise. -/

open Sys2Proof Sys2Proof.Machine

/-! ## Encoding -/

/-- Words written out from the opcode map and the vectors of spec/95_test_vectors.md decode to their commands (R61,
R62). -/
def Obligations.CommandWordsDecode : Prop :=
  decodeWord 0x01140001#32 = .ok (.crc8 0 20 .fbuf) ∧ decodeWord 0x00053C01#32 = .ok (.crc8 60 5 .pbuf)
    ∧ decodeWord 0x03010210#32 = .ok (.pktConstruct 2 1 3) ∧ decodeWord 0xFFFFFF11#32 = .ok .pktValidate
    ∧ decodeWord 0x00000012#32 = .ok .pktGetType ∧ decodeWord 0x00000013#32 = .ok .pktGetFlags
    ∧ decodeWord 0x00000014#32 = .ok .pktGetPayloadSize ∧ decodeWord 0x00000020#32 = .ok .frmValidate
    ∧ decodeWord 0x00000021#32 = .ok .frmIsResend ∧ decodeWord 0x00000022#32 = .ok .frmGetIndex
    ∧ decodeWord 0x00010430#32 = .ok (.frmBuild 4 1) ∧ decodeWord 0x00000040#32 = .ok .frmBuildResend
    ∧ decodeWord 0x00000050#32 = .ok .frmReconstruct ∧ decodeWord 0x00000099#32 = .error (.unassignedOpcode 0x99#8)

/-- Decode and encode agree for every command and every operand, and the encoder writes ignored fields as 0. -/
def Obligations.DecodeOfEncodeIsTheCommand : Prop :=
  ∀ i : Instr, decodeWord (encode i) = .ok i ∧ wellFormedWord (encode i) = true

/-- The other direction: the encoding of what a word decodes to is the word with its ignored bits cleared. -/
def Obligations.EncodeOfDecodeKeepsTheUsedBits : Prop :=
  ∀ (w : Word) (i : Instr), decodeWord w = .ok i → ∃ r, opcodeRowOf w = some r ∧ encode i = w &&& r.used

/-- R64: two words that agree on the bits their command reads are the same command to the engine. -/
def Obligations.IgnoredBitsDoNotChangeTheCommand : Prop :=
  ∀ (w x : Word) (r : OpcodeRow), opcodeRowOf w = some r → x &&& r.used = w &&& r.used → decodeWord x = decodeWord w

/-- R65: 244 OP values are illegal, 0x00 among them; a word with one of them is rejected whatever its other fields, and
the engine's step on it completes with ILLEGAL_COMMAND (5) and touches no buffer. -/
def Obligations.UnassignedOpcodesAreIllegal : Prop :=
  ((List.range 256).filter fun n => !wordOpAssigned (BitVec.ofNat 32 n)).length = 244
    ∧ wordOpAssigned 0#32 = false
    ∧ (∀ w : Word, wordOpAssigned w = wordOpAssigned (BitVec.ofNat 32 (w.toNat % 256)))
    ∧ (∀ w : Word, wordOpAssigned w = false ↔ decodeWord w = .error (.unassignedOpcode (w.extractLsb' 0 8)))
    ∧ ∀ s : State, s.status.busy = true → wordOpAssigned s.latch = false →
        engineTurn s = .next { s with status := Status.failure 5#4 }
          ∧ (s.turns.head? = some .engine →
            step s = .next { s with turns := s.turns.tail, status := Status.failure 5#4 })

/-! ## Steps of the engine and the whole machine -/

/-- A step in which the engine is next in turn runs the decoded command on the state with that turn taken, and completes
an unassigned opcode as illegal (R31, R169). That the engine is next in turn when the list of turns is empty is the model's
choice, assumption log 4, made for the weak fairness of R190. -/
def Obligations.StepRunsTheDecodedCommand : Prop :=
  ∀ s : State, s.status.busy = true → s.turns.head? = none ∨ s.turns.head? = some .engine →
    (∀ i, decodeWord s.latch = .ok i → step s = exec i { s with turns := s.turns.tail })
      ∧ (wordOpAssigned s.latch = false → step s = .next { s with turns := s.turns.tail, status := Status.failure 5#4 })

/-- The engine takes a step only while BUSY = 1 (R16). That its turn while BUSY = 0 changes nothing, and that an idle
block with no turn left stays as it is, is the model's choice (assumption log 4). -/
def Obligations.IdleEngineChangesNothing : Prop :=
  ∀ s : State, s.status.busy = false → s.turns.head? = none ∨ s.turns.head? = some .engine →
    step s = .next { s with turns := s.turns.tail }

/-- A command that completes leaves BUSY = 0 and DONE = 1 and changes nothing but STATUS and buffer bytes (R31). -/
def Obligations.CompletionFrame : Prop :=
  ∀ (i : Instr) (s t : State), exec i s = .next t →
    t.status.busy = false ∧ t.status.done = true
      ∧ t = { s with status := t.status, pbuf := t.pbuf, fbuf := t.fbuf }

/-- A command changes no buffer outside its write set of R194, spelled out: only PKT_CONSTRUCT and FRM_RECONSTRUCT write
PBUF, only FRM_BUILD and FRM_BUILD_RESEND write FBUF, and no other command writes a buffer. -/
def Obligations.CommandsWriteOnlyTheirWriteSet : Prop :=
  ∀ (i : Instr) (s t : State), exec i s = .next t →
    ((∀ a b c, i ≠ .pktConstruct a b c) → i ≠ .frmReconstruct → t.pbuf = s.pbuf)
      ∧ ((∀ a b, i ≠ .frmBuild a b) → i ≠ .frmBuildResend → t.fbuf = s.fbuf)

/-- R166: a command that fails completes normally with OK = 0 and a non-zero ERR, changes no state but STATUS, writes no
buffer byte, and the next command may be issued at once; a command that succeeds has ERR = 0. -/
def Obligations.FailuresChangeOnlyStatus : Prop :=
  ∀ (i : Instr) (s t : State), exec i s = .next t →
    (t.status.ok = false →
        t.status.busy = false ∧ t.status.done = true ∧ t.status.err ≠ 0#4 ∧ t.status.err.toNat ≤ 6
          ∧ t = { s with status := t.status } ∧ ∀ w, hostWrite .cmd w t = .next (t.issue w))
      ∧ (t.status.ok = true → t.status.err = 0#4)

/-- R168: the seven commands that cannot fail. -/
def Obligations.CommandsThatCannotFail : Prop :=
  ∀ (i : Instr) (s t : State),
    i ∈ [.pktGetType, .pktGetFlags, .pktGetPayloadSize, .frmIsResend, .frmGetIndex, .frmBuildResend, .frmReconstruct] →
    exec i s = .next t → t.status.ok = true ∧ t.status.err = 0#4

/-- No command is refused; a command faults only by reading an unwritten byte, or, FRM_BUILD alone, by a slice beyond
PBUF offset 63, which takes a length byte above 64 and an index of 4 or more (R52, R144). -/
def Obligations.EngineFaultsAreTheStatedOnes : Prop :=
  ∀ (i : Instr) (s : State),
    (∀ r, exec i s ≠ .refused r)
      ∧ ∀ f, exec i s = .fault f → (∃ u, f = .unwrittenRead u)
          ∨ (∃ u, f = .frameSourceOverrun u) ∧ ∃ fl ix l, i = .frmBuild fl ix ∧ s.byte .pbuf 3 = some l ∧ 64 < l.toNat ∧ 4 ≤ ix.toNat

/-- R174: a fault inside a command comes before its `finish`, so STATUS still reads BUSY = 1 in the faulted state and
nothing but buffer bytes has changed; a fault of a host access replaces the access, which has no effect. In the two clauses
about `step` the turn that was run is taken: `turns` is a field of the model's own (assumption log 4). -/
def Obligations.FaultedStateIsTheOneBeforeFinishOrAccess : Prop :=
  ∀ (s : State) (f : Fault),
    (engineTurn s = .fault f → f.state.status.busy = true ∧ f.state.status = s.status
        ∧ f.state = { s with pbuf := f.state.pbuf, fbuf := f.state.fbuf })
      ∧ (s.turns.head? = some .engine → step s = .fault f → f.state.status.busy = true ∧ f.state.status = s.status
        ∧ f.state = { s with turns := s.turns.tail, pbuf := f.state.pbuf, fbuf := f.state.fbuf })
      ∧ (∀ a, s.turns.head? = some (.host a) → step s = .fault f → f.state = { s with turns := s.turns.tail })
      ∧ (s.turns.head? = some .reset → step s ≠ .fault f)

/-- The faulted state holds the buffer bytes a command writes before the read that faults, in the order of its pseudocode
(R11, R108, R154, R160): the header of PKT_CONSTRUCT, header and footer magic of FRM_BUILD_RESEND, and the payload bytes
FRM_RECONSTRUCT has copied. That the faulted state holds them is inferred, assumption log 8. -/
def Obligations.FaultedStateHoldsTheWritesBefore : Prop :=
  (∀ (s : State) (type flags size : Byte), size.toNat ≤ 59 → s.SomeUnwritten .pbuf 4 size.toNat →
      ∃ u, exec (.pktConstruct type flags size) s = .fault (.unwrittenRead u)
        ∧ u.Holds .pbuf 0 [0xAC#8, type, flags, BitVec.ofNat 8 (size.toNat + 5)]
        ∧ (∀ o, 4 ≤ o → u.byte .pbuf o = s.byte .pbuf o) ∧ u = { s with pbuf := u.pbuf })
    ∧ (∀ s : State, s.SomeUnwritten .fbuf 3 16 →
      ∃ u, exec .frmBuildResend s = .fault (.unwrittenRead u) ∧ u.Holds .fbuf 0 [0xAE#8, 0x00#8, 0x04#8]
        ∧ (∀ o, 3 ≤ o → u.byte .fbuf o =
            if o = 19 ∧ s.params.footerRev = .tagged then some 0xAF#8 else s.byte .fbuf o)
        ∧ u = { s with fbuf := u.fbuf })
    ∧ ∀ (s : State) (i fl : Byte) (d : List Byte), s.byte .fbuf 1 = some i → s.byte .fbuf 2 = some fl → i.toNat < 4 →
      d.length < 16 → s.Holds .fbuf 3 d → s.byte .fbuf (3 + d.length) = none →
      ∃ u, exec .frmReconstruct s = .fault (.unwrittenRead u) ∧ u.Holds .pbuf (16 * i.toNat) d
        ∧ (∀ o, o < 16 * i.toNat ∨ 16 * i.toNat + d.length ≤ o → u.byte .pbuf o = s.byte .pbuf o)
        ∧ u = { s with pbuf := u.pbuf }

/-- R23: a command's result depends only on the command, the instance and the bytes of the buffers in its read set: two
states that agree there end alike, in a next state with the same STATUS or in the same fault, and each buffer byte
afterwards is the same in both or untouched in both. -/
def Obligations.ResultDependsOnlyOnTheReadSet : Prop :=
  ∀ (i : Instr) (s s' : State), s.params = s'.params → (∀ b ∈ readSet i, ∀ o, s.byte b o = s'.byte b o) →
    (∀ f, exec i s = .fault f → ∃ u, exec i s' = .fault (f.withState u)
        ∧ ∀ b o, f.state.byte b o = u.byte b o ∨ f.state.byte b o = s.byte b o ∧ u.byte b o = s'.byte b o)
      ∧ ∀ t, exec i s = .next t → ∃ t', exec i s' = .next t' ∧ t'.status = t.status
          ∧ ∀ b o, t.byte b o = t'.byte b o ∨ t.byte b o = s.byte b o ∧ t'.byte b o = s'.byte b o

/-- The invariant at reset: nothing set, nothing listed. -/
def Obligations.ResetMeetsTheInvariant : Prop := State.reset.Inv ∧ ∀ p, (State.resetWith p).Inv

/-- Every step keeps the invariant: STATUS stays coherent and the buffers stay in canonical form inside their size. -/
def Obligations.StepKeepsTheInvariant : Prop :=
  ∀ s t : State, s.Inv → step s = .next t → t.Inv

/-- R33: a completed command's STATUS stays until a CMD write or reset; in particular a read of STATUS does not clear
it. -/
def Obligations.DoneStaysUntilCmdWriteOrReset : Prop :=
  ∀ s t : State, s.Inv → s.status.done = true → step s = .next t → t.status ≠ s.status →
    s.turns.head? = some .reset ∨ ∃ w, s.turns.head? = some (.host (.write s.params.base 32 w))

/-- Only a CMD write starts a command (R16, R30, R51). -/
def Obligations.OnlyACmdWriteStartsACommand : Prop :=
  ∀ s t : State, s.status.busy = false → step s = .next t → t.status.busy = true →
    ∃ w, s.turns.head? = some (.host (.write s.params.base 32 w)) ∧ t.latch = w

/-- Only reset makes a written byte unwritten again (R26, R29). -/
def Obligations.OnlyResetUnwritesAByte : Prop :=
  ∀ (s t : State) (b : Buf) (o : Nat), step s = .next t → (s.byte b o).isSome = true → t.byte b o = none →
    s.turns.head? = some .reset

/-- From an idle block a command word written to CMD, any number of STATUS polls and the engine's turn run the command
as issued; each poll reads BUSY alone (R30, R32, R190). -/
def Obligations.CommandRunsAfterAnyPolls : Prop :=
  ∀ (s : State) (i : Instr) (k : Nat), s.status.busy = false →
    s.turns = .host (.write s.params.base 32 (encode i))
      :: (List.replicate k (.host (.read (s.params.base + 4) 32)) ++ [.engine]) →
    Host.Core.run core (k + 2) s =
      exec i { s.issue (encode i) with turns := [], readData := if k = 0 then s.readData else some 1#32 }

/-! ## Reset -/

/-- R29, R187: what the reset event leaves, whatever the state before, a running command included, and that the engine
then does nothing. -/
def Obligations.ResetEventLeavesTheStatedValues : Prop :=
  ∀ (s : State) (ts : List Turn), s.turns = .reset :: ts →
    ∃ t, step s = .next t ∧ t.status = ⟨false, false, false, false, 0#4, 0#8⟩ ∧ t.status.word = 0#32 ∧ t.latch = 0#32
      ∧ t.params = s.params ∧ configWord t.params = configWord s.params ∧ (∀ b o, t.byte b o = none) ∧ t.turns = ts
      ∧ engineTurn t = .next t
      ∧ ∀ w, hostWrite .cmd w t = .next { t with latch := w, status := ⟨true, false, false, false, 0#4, 0#8⟩ }

/-- R29, R6, R7, R97: the state the model starts from is the default instance with every stated reset value. That State.reset
is an instance with the TAGGED footer is assumption log 1, that it has these tables and CRC_INIT log 2. Its BASE and the two
fields of the model's own are the model's choice (log 3, 4, 5) and are not part of the statement. -/
def Obligations.InitialStateIsTheDefaultInstance : Prop :=
  State.reset.status = ⟨false, false, false, false, 0#4, 0#8⟩ ∧ State.reset.latch = 0#32
    ∧ (∀ b o, State.reset.byte b o = none) ∧ State.reset.params.footerRev = .tagged
    ∧ State.reset.params.crcInit = 0#8
    ∧ State.reset.params.crcLo = #v[0x00#8, 0x5E#8, 0xBC#8, 0xE2#8, 0x61#8, 0x3F#8, 0xDD#8, 0x83#8,
        0xC2#8, 0x9C#8, 0x7E#8, 0x20#8, 0xA3#8, 0xFD#8, 0x1F#8, 0x41#8]
    ∧ State.reset.params.crcHi = #v[0x00#8, 0x9D#8, 0x23#8, 0xBE#8, 0x46#8, 0xDB#8, 0x65#8, 0xF8#8,
        0x8C#8, 0x11#8, 0xAF#8, 0x32#8, 0xCA#8, 0x57#8, 0xE9#8, 0x74#8]
    ∧ configWord State.reset.params = 0x10401501#32

/-! ## The host's window

In these statements `turns := ts` takes the turn that was run and `readData` is where the model shows what a read returned:
two fields of the model's own (assumption log 4, 5), of which the rules say nothing. -/

/-- R20: the bits of the STATUS word. -/
def Obligations.StatusWordLayout : Prop :=
  ∀ st : Status, st.word.getLsbD 0 = st.busy ∧ st.word.getLsbD 1 = st.done ∧ st.word.getLsbD 2 = st.ok
    ∧ st.word.getLsbD 3 = st.more ∧ st.word.extractLsb' 4 4 = st.err ∧ st.word.extractLsb' 8 8 = st.value
    ∧ st.word.extractLsb' 16 16 = 0#16

/-- R19, R30, R193: a word write to CMD latches and issues while BUSY = 0 and changes no buffer byte, is the fault
CommandWhileBusy while BUSY = 1, and a word read of CMD returns 0 with no side effect. -/
def Obligations.CmdRegister : Prop :=
  ∀ (s : State) (ts : List Turn) (w : Word),
    (s.turns = .host (.write s.params.base 32 w) :: ts → s.status.busy = false →
      step s = .next { s with turns := ts, latch := w, status := ⟨true, false, false, false, 0#4, 0#8⟩ })
    ∧ (s.turns = .host (.write s.params.base 32 w) :: ts → s.status.busy = true →
      step s = .fault (.commandWhileBusy { s with turns := ts }))
    ∧ (s.turns = .host (.read s.params.base 32) :: ts → step s = .next { s with turns := ts, readData := some 0#32 })

/-- R32: a read of STATUS may happen at any time and has no side effect; while BUSY = 1 it returns BUSY alone. A write
to STATUS is ignored (R20). -/
def Obligations.StatusRegister : Prop :=
  ∀ (s : State) (ts : List Turn) (w : Word),
    (s.turns = .host (.read (s.params.base + 4) 32) :: ts →
      step s = .next { s with turns := ts, readData := some s.status.word })
    ∧ (s.Inv → s.status.busy = true → s.status.word = 1#32)
    ∧ (s.turns = .host (.write (s.params.base + 4) 32 w) :: ts → step s = .next { s with turns := ts })

/-- R21: CONFIG reads as its constant, a write to it is ignored, and no step changes it, reset included. -/
def Obligations.ConfigRegister : Prop :=
  (∀ (s : State) (ts : List Turn), s.turns = .host (.read (s.params.base + 8) 32) :: ts →
      step s = .next { s with
        turns := ts
        readData := some (if s.params.footerRev = .tagged then 0x10401501#32 else 0x10401400#32) })
    ∧ (∀ (s : State) (ts : List Turn) (w : Word), s.turns = .host (.write (s.params.base + 8) 32 w) :: ts →
      step s = .next { s with turns := ts })
    ∧ ∀ s t : State, step s = .next t → t.params = s.params

/-- R44: an access of any width to a reserved offset. -/
def Obligations.ReservedOffsetsFault : Prop :=
  ∀ (s : State) (a : Access) (ts : List Turn) (off : Nat), s.turns = .host a :: ts → a.addr = s.params.base + off →
    0x00C ≤ off ∧ off < 0x100 ∨ 0x140 ≤ off ∧ off < 0x180
      ∨ 0x180 + (if s.params.footerRev = .tagged then 21 else 20) ≤ off ∧ off < 0x200 →
    step s = .fault (.reservedAccess { s with turns := ts })

/-- R43: a register access that is not a 32-bit access at the register's offset, and a buffer access that is not 8 bits
wide, of those that lie in the registers or in one buffer. -/
def Obligations.WrongWidthOrAlignmentFaults : Prop :=
  ∀ (s : State) (a : Access) (ts : List Turn) (off : Nat), s.turns = .host a :: ts → a.addr = s.params.base + off →
    off + (a.width + 7) / 8 ≤ 0x00C ∧ off < 0x00C ∧ ¬(a.width = 32 ∧ off % 4 = 0)
      ∨ (0x100 ≤ off ∧ off < 0x140 ∧ off + (a.width + 7) / 8 ≤ 0x140
          ∨ 0x180 ≤ off ∧ off < 0x180 + (if s.params.footerRev = .tagged then 21 else 20)
            ∧ off + (a.width + 7) / 8 ≤ 0x180 + (if s.params.footerRev = .tagged then 21 else 20)) ∧ a.width ≠ 8 →
    step s = .fault (.badAccess { s with turns := ts })

/-- An access of a wrong width that begins in a register or a buffer and reaches into what follows is BadAccess too: an
access is classified by its first byte, the model's choice, assumption log 7 (R43, R44 leave open which fault it is). -/
def Obligations.AccessesAreClassifiedByTheirFirstByte : Prop :=
  ∀ (s : State) (a : Access) (ts : List Turn) (off : Nat), s.turns = .host a :: ts → a.addr = s.params.base + off →
    off < 0x00C ∧ ¬(a.width = 32 ∧ off % 4 = 0)
      ∨ (0x100 ≤ off ∧ off < 0x140
          ∨ 0x180 ≤ off ∧ off < 0x180 + (if s.params.footerRev = .tagged then 21 else 20)) ∧ a.width ≠ 8 →
    step s = .fault (.badAccess { s with turns := ts })

/-- An access outside the 512-byte window is not the block's: the model's choice, assumption log 6 (R41 gives the
window). -/
def Obligations.OutsideTheWindowIsRefused : Prop :=
  ∀ (s : State) (a : Access) (ts : List Turn), s.turns = .host a :: ts →
    a.addr < s.params.base ∨ s.params.base + 0x200 ≤ a.addr → step s = .refused .outsideWindow

/-- R194: the table of read and write sets; while BUSY = 1 a byte write to a buffer in either set and a byte read of a
buffer in the write set are the fault BufferHazard; any other buffer access is permitted and meets the bytes as they
stood: a write stores its byte and changes nothing else, a read changes nothing. -/
def Obligations.BufferHazards : Prop :=
  (∀ a b sel, readSet (.crc8 a b sel) = [sel] ∧ writeSet (.crc8 a b sel) = [])
    ∧ (∀ a b c, readSet (.pktConstruct a b c) = [.pbuf] ∧ writeSet (.pktConstruct a b c) = [.pbuf])
    ∧ (∀ i, i ∈ [.pktValidate, .pktGetType, .pktGetFlags, .pktGetPayloadSize] → readSet i = [.pbuf] ∧ writeSet i = [])
    ∧ (∀ i, i ∈ [.frmValidate, .frmIsResend, .frmGetIndex] → readSet i = [.fbuf] ∧ writeSet i = [])
    ∧ (∀ a b, readSet (.frmBuild a b) = [.pbuf] ∧ writeSet (.frmBuild a b) = [.fbuf])
    ∧ (readSet .frmBuildResend = [.fbuf] ∧ writeSet .frmBuildResend = [.fbuf])
    ∧ (readSet .frmReconstruct = [.fbuf] ∧ writeSet .frmReconstruct = [.pbuf])
    ∧ ∀ (s : State) (ts : List Turn) (b : Buf) (o : Nat) (d : Word), s.status.busy = true → o < s.size b →
        (∀ i, decodeWord s.latch = .ok i →
          (s.turns = .host (.write (s.params.base + bufferOffset b o) 8 d) :: ts → b ∈ readSet i ∨ b ∈ writeSet i →
            step s = .fault (.bufferHazard { s with turns := ts }))
          ∧ (s.turns = .host (.write (s.params.base + bufferOffset b o) 8 d) :: ts → ¬(b ∈ readSet i ∨ b ∈ writeSet i) →
            ∃ t, step s = .next t ∧ t.byte b o = some (d.setWidth 8)
              ∧ (∀ b' o', (b' ≠ b ∨ o' ≠ o) → t.byte b' o' = s.byte b' o')
              ∧ t = { s with turns := ts, pbuf := t.pbuf, fbuf := t.fbuf })
          ∧ (∀ v, s.turns = .host (.read (s.params.base + bufferOffset b o) 8) :: ts → b ∈ writeSet i →
            s.byte b o = some v → step s = .fault (.bufferHazard { s with turns := ts }))
          ∧ ∀ v, s.turns = .host (.read (s.params.base + bufferOffset b o) 8) :: ts → b ∉ writeSet i →
            s.byte b o = some v → step s = .next { s with turns := ts, readData := some (v.setWidth 32) })
        ∧ (wordOpAssigned s.latch = false →
          (s.turns = .host (.write (s.params.base + bufferOffset b o) 8 d) :: ts →
            ∃ t, step s = .next t ∧ t.byte b o = some (d.setWidth 8)
              ∧ (∀ b' o', (b' ≠ b ∨ o' ≠ o) → t.byte b' o' = s.byte b' o')
              ∧ t = { s with turns := ts, pbuf := t.pbuf, fbuf := t.fbuf })
          ∧ ∀ v, s.turns = .host (.read (s.params.base + bufferOffset b o) 8) :: ts → s.byte b o = some v →
            step s = .next { s with turns := ts, readData := some (v.setWidth 32) })

/-- A read that conflicts with the running command and meets an unwritten byte is BufferHazard: the model's choice, assumption
log 7 (R194 and R26 both name a fault for it). -/
def Obligations.HazardIsReportedBeforeUnwritten : Prop :=
  ∀ (s : State) (ts : List Turn) (b : Buf) (o : Nat) (i : Instr), s.status.busy = true → o < s.size b →
    decodeWord s.latch = .ok i → b ∈ writeSet i → s.byte b o = none →
    s.turns = .host (.read (s.params.base + bufferOffset b o) 8) :: ts → step s = .fault (.bufferHazard { s with turns := ts })

/-- A byte write to a buffer of a block that is idle, or whose running command neither reads nor writes that buffer,
stores that byte and changes nothing else: it starts, changes and cancels no command (R51). A later read of that byte
returns it (R26, R54). -/
def Obligations.HostBufferWrite : Prop :=
  ∀ (s : State) (ts : List Turn) (b : Buf) (o : Nat) (d : Word), s.writeHazard b = false → o < s.size b →
    s.turns = .host (.write (s.params.base + bufferOffset b o) 8 d) :: ts →
    ∃ t, step s = .next t ∧ t.byte b o = some (d.setWidth 8)
      ∧ (∀ b' o', (b' ≠ b ∨ o' ≠ o) → t.byte b' o' = s.byte b' o')
      ∧ t = { s with turns := ts, pbuf := t.pbuf, fbuf := t.fbuf }
      ∧ ∀ ts', ts = .host (.read (s.params.base + bufferOffset b o) 8) :: ts' →
          step t = .next { t with turns := ts', readData := some ((d.setWidth 8).setWidth 32) }

/-- A byte read of a buffer of a block that is idle, or whose running command does not write that buffer, returns the
stored byte with no side effect, and an unwritten byte is the fault UnwrittenRead (R26, R51, R194). -/
def Obligations.HostBufferRead : Prop :=
  ∀ (s : State) (ts : List Turn) (b : Buf) (o : Nat), s.readHazard b = false → o < s.size b →
    s.turns = .host (.read (s.params.base + bufferOffset b o) 8) :: ts →
    (∀ v, s.byte b o = some v → step s = .next { s with turns := ts, readData := some (v.setWidth 32) })
      ∧ (s.byte b o = none → step s = .fault (.unwrittenRead { s with turns := ts }))

/-! ## CRC -/

/-- R97: the default tables are the eight bitwise steps of the reflected polynomial 0x8C, meet both conditions of R7,
and give 0xA1 for the bytes of 123456789. The default is the spec's own, from general knowledge (assumption log 2). -/
def Obligations.DefaultTablesAreTheBitwiseCrc : Prop :=
  (∀ x : Byte, crcT Params.default x
      = (fun r : Byte => if r.getLsbD 0 then (r >>> 1) ^^^ 0x8C#8 else r >>> 1)^[8] x)
    ∧ Params.default.crcZero = true ∧ CrcInjective Params.default
    ∧ crcOf Params.default [0x31#8, 0x32#8, 0x33#8, 0x34#8, 0x35#8, 0x36#8, 0x37#8, 0x38#8, 0x39#8] = 0xA1#8

/-- R100: the CRC of a unit with its own CRC appended is zero, for every CRC_INIT. -/
def Obligations.CrcOfAUnitWithItsCrcIsZero : Prop :=
  ∀ (s : State) (b : Buf) (o : Nat) (d : List Byte) (c : Byte), s.params.crcZero = true →
    s.crc8 b o d.length = .ok c → s.byte b (o + d.length) = some c → s.Holds b o d →
    s.crc8 b o (d.length + 1) = .ok 0#8

/-- R101: with a bijective T, changing one byte of a range changes its CRC. -/
def Obligations.ChangingOneByteChangesTheCrc : Prop :=
  ∀ (p : Params) (xs ys : List Byte) (x y : Byte), CrcInjective p → x ≠ y →
    crcOf p (xs ++ x :: ys) ≠ crcOf p (xs ++ y :: ys)

/-- R102, R103: CRC8 with its encoding; it fails with RANGE (6) when the range does not lie in the buffer, else gives
the CRC of the bytes in VALUE and writes no buffer byte, and faults on an unwritten byte of the range. -/
def Obligations.Crc8Command : Prop :=
  ∀ (s : State) (start len : Byte) (sel : Buf),
    (∀ c : Byte, c.getLsbD 0 = decide (sel = .fbuf) → decodeWord (c ++ len ++ start ++ 0x01#8) = .ok (.crc8 start len sel))
    ∧ (start.toNat + len.toNat > (if sel = .pbuf then 64 else s.params.frameSize) →
      exec (.crc8 start len sel) s = .next { s with status := Status.failure 6#4 })
    ∧ (∀ d, start.toNat + len.toNat ≤ (if sel = .pbuf then 64 else s.params.frameSize) → d.length = len.toNat →
      s.Holds sel start.toNat d →
      exec (.crc8 start len sel) s = .next { s with status := Status.success false (crcOf s.params d) })
    ∧ (s.SomeUnwritten sel start.toNat len.toNat → exec (.crc8 start len sel) s = .fault (.unwrittenRead s))

/-! ## Packets -/

/-- R108, R109: PKT_CONSTRUCT and its encoding. -/
def Obligations.PktConstruct : Prop :=
  ∀ (s : State) (type flags size : Byte),
    decodeWord (size ++ flags ++ type ++ 0x10#8) = .ok (.pktConstruct type flags size)
    ∧ (59 < size.toNat → exec (.pktConstruct type flags size) s = .next { s with status := Status.failure 1#4 })
    ∧ (∀ payload, size.toNat ≤ 59 → payload.length = size.toNat → s.Holds .pbuf 4 payload →
      ∃ t, exec (.pktConstruct type flags size) s = .next t
        ∧ t.Holds .pbuf 0 (packetBytes s.params type flags payload)
        ∧ (∀ o, 4 ≤ o → o ≠ 4 + size.toNat → t.byte .pbuf o = s.byte .pbuf o)
        ∧ t = { s with pbuf := t.pbuf, status := Status.success false 0#8 })
    ∧ (size.toNat ≤ 59 → s.SomeUnwritten .pbuf 4 size.toNat →
      ∃ u, exec (.pktConstruct type flags size) s = .fault (.unwrittenRead u) ∧ u.status = s.status)

/-- R110: PKT_CONSTRUCT followed by PKT_VALIDATE ends with OK = 1 for every payload of at most 59 bytes, and
PKT_CONSTRUCT fails with SIZE_BOUNDS for every other size. -/
def Obligations.ConstructThenValidateSucceeds : Prop :=
  ∀ (s : State) (type flags size : Byte), s.params.crcZero = true →
    (∀ payload, size.toNat ≤ 59 → payload.length = size.toNat → s.Holds .pbuf 4 payload →
      ∃ t, exec (.pktConstruct type flags size) s = .next t
        ∧ ∀ w, exec .pktValidate (t.issue w) = .next { t.issue w with status := Status.success false 0#8 })
    ∧ (60 ≤ size.toNat → exec (.pktConstruct type flags size) s = .next { s with status := Status.failure 1#4 })

/-- R111, R170: PKT_VALIDATE, its encoding, its checks in order, and the faults of its reads. -/
def Obligations.PktValidate : Prop :=
  ∀ s : State,
    (∀ a b c : Byte, decodeWord (c ++ b ++ a ++ 0x11#8) = .ok .pktValidate)
    ∧ (∀ m, s.byte .pbuf 0 = some m → m ≠ 0xAC#8 → exec .pktValidate s = .next { s with status := Status.failure 2#4 })
    ∧ (∀ l : Byte, s.byte .pbuf 0 = some 0xAC#8 → s.byte .pbuf 3 = some l → l.toNat < 5 ∨ 64 < l.toNat →
      exec .pktValidate s = .next { s with status := Status.failure 4#4 })
    ∧ (∀ (l : Byte) (d : List Byte), s.byte .pbuf 0 = some 0xAC#8 → s.byte .pbuf 3 = some l → 5 ≤ l.toNat →
      l.toNat ≤ 64 → d.length = l.toNat → s.Holds .pbuf 0 d →
      exec .pktValidate s =
        .next { s with status := if crcOf s.params d = 0#8 then Status.success false 0#8 else Status.failure 3#4 })
    ∧ (s.byte .pbuf 0 = none → exec .pktValidate s = .fault (.unwrittenRead s))
    ∧ (s.byte .pbuf 0 = some 0xAC#8 → s.byte .pbuf 3 = none → exec .pktValidate s = .fault (.unwrittenRead s))
    ∧ (∀ l : Byte, s.byte .pbuf 0 = some 0xAC#8 → s.byte .pbuf 3 = some l → 5 ≤ l.toNat → l.toNat ≤ 64 →
      s.SomeUnwritten .pbuf 0 l.toNat → exec .pktValidate s = .fault (.unwrittenRead s))

/-- R112, R77: a completed PKT_VALIDATE has OK = 1 exactly when PBUF holds a valid packet, and writes no buffer byte. -/
def Obligations.PktValidateDecidesValidity : Prop :=
  ∀ s t : State, exec .pktValidate s = .next t →
    (t.status.ok = true ↔ s.ValidPacket) ∧ t.pbuf = s.pbuf ∧ t.fbuf = s.fbuf

/-- R115, R116, R117: the packet accessors and their encodings; the payload size is `(L - 5) mod 256`. -/
def Obligations.PacketAccessors : Prop :=
  ∀ (s : State) (v : Byte),
    (∀ a b c : Byte, decodeWord (c ++ b ++ a ++ 0x12#8) = .ok .pktGetType
      ∧ decodeWord (c ++ b ++ a ++ 0x13#8) = .ok .pktGetFlags
      ∧ decodeWord (c ++ b ++ a ++ 0x14#8) = .ok .pktGetPayloadSize)
    ∧ (s.byte .pbuf 1 = some v → exec .pktGetType s = .next { s with status := Status.success false v })
    ∧ (s.byte .pbuf 1 = none → exec .pktGetType s = .fault (.unwrittenRead s))
    ∧ (s.byte .pbuf 2 = some v → exec .pktGetFlags s = .next { s with status := Status.success false v })
    ∧ (s.byte .pbuf 2 = none → exec .pktGetFlags s = .fault (.unwrittenRead s))
    ∧ (s.byte .pbuf 3 = some v → exec .pktGetPayloadSize s =
        .next { s with status := Status.success false (BitVec.ofInt 8 (((v.toNat : Int) - 5) % 256)) })
    ∧ (s.byte .pbuf 3 = none → exec .pktGetPayloadSize s = .fault (.unwrittenRead s))

/-- R101: with a bijective T, changing one byte other than the length byte of a valid packet makes PKT_VALIDATE fail. -/
def Obligations.ChangedPacketByteIsRejected : Prop :=
  ∀ (s : State) (d : List Byte) (k : Nat) (v : Byte), CrcInjective s.params → ValidPacketBytes s.params d →
    k < d.length → k ≠ 3 → d[k]? ≠ some v → s.Holds .pbuf 0 (d.set k v) →
    ∃ t, exec .pktValidate s = .next t ∧ t.status.ok = false

/-! ## Frames -/

/-- R127, R170: FRM_VALIDATE, its encoding, its checks in order, and the faults of its reads. -/
def Obligations.FrmValidate : Prop :=
  ∀ s : State,
    (∀ a b c : Byte, decodeWord (c ++ b ++ a ++ 0x20#8) = .ok .frmValidate)
    ∧ (∀ m, s.byte .fbuf 0 = some m → m ≠ 0xAE#8 → exec .frmValidate s = .next { s with status := Status.failure 2#4 })
    ∧ (∀ i : Byte, s.byte .fbuf 0 = some 0xAE#8 → s.byte .fbuf 1 = some i → 4 ≤ i.toNat →
      exec .frmValidate s = .next { s with status := Status.failure 1#4 })
    ∧ (∀ i x : Byte, s.byte .fbuf 0 = some 0xAE#8 → s.byte .fbuf 1 = some i → i.toNat < 4 →
      s.params.footerRev = .tagged → s.byte .fbuf 19 = some x → x ≠ 0xAF#8 →
      exec .frmValidate s = .next { s with status := Status.failure 2#4 })
    ∧ (∀ (i : Byte) (d : List Byte), s.byte .fbuf 0 = some 0xAE#8 → s.byte .fbuf 1 = some i → i.toNat < 4 →
      (s.params.footerRev = .tagged → s.byte .fbuf 19 = some 0xAF#8) → d.length = s.params.frameSize →
      s.Holds .fbuf 0 d →
      exec .frmValidate s =
        .next { s with status := if crcOf s.params d = 0#8 then Status.success false 0#8 else Status.failure 3#4 })
    ∧ (s.byte .fbuf 0 = none → exec .frmValidate s = .fault (.unwrittenRead s))
    ∧ (s.byte .fbuf 0 = some 0xAE#8 → s.byte .fbuf 1 = none → exec .frmValidate s = .fault (.unwrittenRead s))
    ∧ (∀ i : Byte, s.byte .fbuf 0 = some 0xAE#8 → s.byte .fbuf 1 = some i → i.toNat < 4 →
      s.params.footerRev = .tagged → s.byte .fbuf 19 = none → exec .frmValidate s = .fault (.unwrittenRead s))
    ∧ (∀ i : Byte, s.byte .fbuf 0 = some 0xAE#8 → s.byte .fbuf 1 = some i → i.toNat < 4 →
      (s.params.footerRev = .tagged → s.byte .fbuf 19 = some 0xAF#8) → s.SomeUnwritten .fbuf 0 s.params.frameSize →
      exec .frmValidate s = .fault (.unwrittenRead s))

/-- R128, R80: a completed FRM_VALIDATE has OK = 1 exactly when FBUF holds a valid frame, and writes no buffer byte. -/
def Obligations.FrmValidateDecidesValidity : Prop :=
  ∀ s t : State, exec .frmValidate s = .next t →
    (t.status.ok = true ↔ s.ValidFrame) ∧ t.pbuf = s.pbuf ∧ t.fbuf = s.fbuf

/-- R131, R133: the frame accessors and their encodings. -/
def Obligations.FrameAccessors : Prop :=
  ∀ (s : State) (v : Byte),
    (∀ a b c : Byte, decodeWord (c ++ b ++ a ++ 0x21#8) = .ok .frmIsResend
      ∧ decodeWord (c ++ b ++ a ++ 0x22#8) = .ok .frmGetIndex)
    ∧ (s.byte .fbuf 2 = some v → exec .frmIsResend s =
        .next { s with status := Status.success false (if v.getLsbD 2 then 0x01#8 else 0x00#8) })
    ∧ (s.byte .fbuf 2 = none → exec .frmIsResend s = .fault (.unwrittenRead s))
    ∧ (s.byte .fbuf 1 = some v → exec .frmGetIndex s = .next { s with status := Status.success false v })
    ∧ (s.byte .fbuf 1 = none → exec .frmGetIndex s = .fault (.unwrittenRead s))

/-- R101, R128: with a bijective T, changing one byte of a valid frame makes FRM_VALIDATE fail. -/
def Obligations.ChangedFrameByteIsRejected : Prop :=
  ∀ (s : State) (d : List Byte) (k : Nat) (v : Byte), CrcInjective s.params → ValidFrameBytes s.params d →
    k < d.length → d[k]? ≠ some v → s.Holds .fbuf 0 (d.set k v) →
    ∃ t, exec .frmValidate s = .next t ∧ t.status.ok = false

/-- R142 to R148: FRM_BUILD and its encoding. The frame count is `(L + 15) div 16`; a failing build changes only STATUS;
a slice beyond PBUF offset 63 is the fault FrameSourceOverrun. -/
def Obligations.FrmBuild : Prop :=
  ∀ (s : State) (fin i : Byte),
    (∀ c : Byte, decodeWord (c ++ i ++ fin ++ 0x30#8) = .ok (.frmBuild fin i))
    ∧ (∀ l : Byte, s.byte .pbuf 3 = some l → (l.toNat + 15) / 16 ≤ i.toNat →
      exec (.frmBuild fin i) s = .next { s with status := Status.failure 1#4 })
    ∧ (∀ (l : Byte) (d : List Byte), s.byte .pbuf 3 = some l → i.toNat < (l.toNat + 15) / 16 →
      d.length = min 16 (l.toNat - 16 * i.toNat) → s.Holds .pbuf (16 * i.toNat) d →
      ∃ t, exec (.frmBuild fin i) s = .next t
        ∧ t.Holds .fbuf 0 (frameBytes s.params i
            (if i.toNat + 1 = (l.toNat + 15) / 16 then fin ||| 0x02#8 else fin &&& 0xFD#8)
            (d ++ List.replicate (16 - d.length) 0#8))
        ∧ t = { s with
            fbuf := t.fbuf
            status := Status.success (decide (i.toNat + 1 < (l.toNat + 15) / 16)) 0#8 })
    ∧ (∀ l : Byte, s.byte .pbuf 3 = some l → i.toNat < (l.toNat + 15) / 16 → 4 ≤ i.toNat →
      exec (.frmBuild fin i) s = .fault (.frameSourceOverrun s))
    ∧ (s.byte .pbuf 3 = none → exec (.frmBuild fin i) s = .fault (.unwrittenRead s))
    ∧ (∀ l : Byte, s.byte .pbuf 3 = some l → i.toNat < (l.toNat + 15) / 16 → i.toNat < 4 →
      s.SomeUnwritten .pbuf (16 * i.toNat) (min 16 (l.toNat - 16 * i.toNat)) →
      exec (.frmBuild fin i) s = .fault (.unwrittenRead s))

/-- R143, R146: in the frame a successful FRM_BUILD writes, TransactionEnd is set exactly in the packet's last frame and
every other flag bit is the caller's. -/
def Obligations.TransactionEndMarksTheLastFrame : Prop :=
  ∀ (s t : State) (fin i l : Byte), exec (.frmBuild fin i) s = .next t → t.status.ok = true →
    s.byte .pbuf 3 = some l →
    ∃ fl : Byte, t.byte .fbuf 2 = some fl
      ∧ (fl.getLsbD 1 = true ↔ (i.toNat : Int) = ((l.toNat + 15) / 16 : Nat) - 1)
      ∧ ∀ k, k ≠ 1 → fl.getLsbD k = fin.getLsbD k

/-- R150: building the frames of a packet with a length of 5 to 64 one after the other, each command issued in the state
the last one left, gives OK = 1 every time, MORE = 1 but for the last, TransactionEnd in the last alone, and then
SIZE_BOUNDS for the index after the last; PBUF is as it was. -/
def Obligations.BuildingAllFramesInOrder : Prop :=
  ∀ (s : State) (fin l : Byte) (d : List Byte), s.byte .pbuf 3 = some l → 5 ≤ l.toNat → l.toNat ≤ 64 →
    d.length = l.toNat → s.Holds .pbuf 0 d →
    ∃ t, BuildsInOrder fin ((l.toNat + 15) / 16) 0 ((l.toNat + 15) / 16) s t ∧ t.pbuf = s.pbuf
      ∧ ∀ w, exec (.frmBuild fin (BitVec.ofNat 8 ((l.toNat + 15) / 16))) (t.issue w) =
          .next { t.issue w with status := Status.failure 1#4 }

/-- R154, R155: FRM_BUILD_RESEND, with its encoding, stamps header and footer around the payload in FBUF and leaves the
payload as it is. -/
def Obligations.FrmBuildResend : Prop :=
  ∀ s : State,
    (∀ a b c : Byte, decodeWord (c ++ b ++ a ++ 0x40#8) = .ok .frmBuildResend)
    ∧ (∀ d : List Byte, d.length = 16 → s.Holds .fbuf 3 d →
      ∃ t, exec .frmBuildResend s = .next t ∧ t.Holds .fbuf 0 (frameBytes s.params 0x00#8 0x04#8 d)
        ∧ t = { s with fbuf := t.fbuf, status := Status.success false 0#8 })
    ∧ (s.SomeUnwritten .fbuf 3 16 →
      ∃ u, exec .frmBuildResend s = .fault (.unwrittenRead u) ∧ u.status = s.status)

/-- R128, R132, R155: a frame built with an index below 4, and a resend frame, pass FRM_VALIDATE; FRM_IS_RESEND tells a
resend frame from a data frame built without the RequestResend bit. -/
def Obligations.BuiltFramesValidate : Prop :=
  (∀ (s t : State) (fin i : Byte), s.params.crcZero = true → i.toNat < 4 → exec (.frmBuild fin i) s = .next t →
      t.status.ok = true →
      exec .frmValidate t = .next { t with status := Status.success false 0#8 }
        ∧ (fin.getLsbD 2 = false → exec .frmIsResend t = .next { t with status := Status.success false 0x00#8 }))
    ∧ ∀ s t : State, s.params.crcZero = true → exec .frmBuildResend s = .next t →
        exec .frmValidate t = .next { t with status := Status.success false 0#8 }
          ∧ exec .frmIsResend t = .next { t with status := Status.success false 0x01#8 }

/-- R160: FRM_RECONSTRUCT, with its encoding, places the payload at 16 times the index, writes nothing for an index of 4
or more, reports MORE from TransactionEnd, and always succeeds. -/
def Obligations.FrmReconstruct : Prop :=
  ∀ s : State,
    (∀ a b c : Byte, decodeWord (c ++ b ++ a ++ 0x50#8) = .ok .frmReconstruct)
    ∧ (∀ (i fl : Byte) (d : List Byte), s.byte .fbuf 1 = some i → s.byte .fbuf 2 = some fl → i.toNat < 4 →
      d.length = 16 → s.Holds .fbuf 3 d →
      ∃ t, exec .frmReconstruct s = .next t ∧ t.Holds .pbuf (16 * i.toNat) d
        ∧ (∀ o, o < 16 * i.toNat ∨ 16 * i.toNat + 16 ≤ o → t.byte .pbuf o = s.byte .pbuf o)
        ∧ t = { s with pbuf := t.pbuf, status := Status.success (!fl.getLsbD 1) 0#8 })
    ∧ (∀ i fl : Byte, s.byte .fbuf 1 = some i → s.byte .fbuf 2 = some fl → 4 ≤ i.toNat →
      exec .frmReconstruct s = .next { s with status := Status.success (!fl.getLsbD 1) 0#8 })
    ∧ (s.byte .fbuf 1 = none ∨ s.byte .fbuf 2 = none → exec .frmReconstruct s = .fault (.unwrittenRead s))
    ∧ (∀ i : Byte, s.byte .fbuf 1 = some i → i.toNat < 4 → s.SomeUnwritten .fbuf 3 16 →
      ∃ u, exec .frmReconstruct s = .fault (.unwrittenRead u) ∧ u.status = s.status)

/-- R156: the block does not refuse to reassemble a resend frame: it copies the payload to PBUF offsets 0 to 15 and
reports MORE = 1. -/
def Obligations.ResendFrameIsReassembledLikeAnyOther : Prop :=
  ∀ (s t : State) (d : List Byte), d.length = 16 → s.Holds .fbuf 3 d → exec .frmBuildResend s = .next t →
    ∃ u, exec .frmReconstruct t = .next u ∧ u.Holds .pbuf 0 d ∧ u.status.more = true

/-- R162: segmenting a valid packet and delivering its frames in any order, each at least once, reproduces the packet
byte for byte, with zeros up to the end of the last slice; every FRM_VALIDATE gives OK = 1, MORE is 1 but for the last
frame, and PKT_VALIDATE on the receiver gives OK = 1. -/
def Obligations.SegmentAndReassembleRoundTrip : Prop :=
  ∀ (snd rcv : State) (flags : Byte) (d : List Byte) (order : List Nat), snd.params = rcv.params →
    snd.params.crcZero = true → snd.Holds .pbuf 0 d → ValidPacketBytes snd.params d →
    (∀ i, i ∈ order ↔ i < (d.length + 15) / 16) →
    ∃ r, Delivers snd flags ((d.length + 15) / 16) order rcv r
      ∧ r.Holds .pbuf 0 (d ++ List.replicate (16 * ((d.length + 15) / 16) - d.length) 0#8)
      ∧ exec .pktValidate r = .next { r with status := Status.success false 0#8 }

/-- R151: a frame marked TransactionEnd by hand, with its CRC recomputed by CRC8 and stored, passes FRM_VALIDATE and
makes FRM_RECONSTRUCT report MORE = 0. -/
def Obligations.HandMarkedFrameValidates : Prop :=
  ∀ (s f g : State) (fin i fl : Byte), s.params.crcZero = true → i.toNat < 4 → exec (.frmBuild fin i) s = .next f →
    f.status.ok = true → f.byte .fbuf 2 = some fl →
    exec (.crc8 0#8 (BitVec.ofNat 8 s.params.frameCrcOffset) .fbuf) (f.memWrite .fbuf 2 (fl ||| 0x02#8)) = .next g →
    ∃ t, exec .frmValidate (g.memWrite .fbuf s.params.frameCrcOffset g.status.value) = .next t ∧ t.status.ok = true
      ∧ ∃ u, exec .frmReconstruct t = .next u ∧ u.status.more = false
end

