-- ==== Sys2Proof/Laws/Decode.lean ====
section
/-! SUPPORT. The fields of a packed command word, and that the rows of the opcode map do not overlap. -/

namespace Sys2Proof

theorem packWord_toNat (op a b c : Byte) :
    (packWord op a b c).toNat = op.toNat + 256 * a.toNat + 65536 * b.toNat + 16777216 * c.toNat := by
  have h : ∀ (m n : Nat) (x : BitVec m) (y : BitVec n), (x ++ y).toNat = 2 ^ n * x.toNat + y.toNat := by
    intro m n x y
    rw [BitVec.toNat_append, Nat.shiftLeft_eq, Nat.mul_comm, Nat.two_pow_add_eq_or_of_lt y.isLt]
  show (c ++ b ++ a ++ op).toNat = _
  simp only [h]
  omega

@[simp] theorem opField_packWord (op a b c : Byte) : opField (packWord op a b c) = op := by
  apply BitVec.eq_of_toNat_eq
  simp only [opField, BitVec.extractLsb'_toNat, packWord_toNat, Nat.shiftRight_eq_div_pow]
  omega

@[simp] theorem aField_packWord (op a b c : Byte) : aField (packWord op a b c) = a := by
  apply BitVec.eq_of_toNat_eq
  simp only [aField, BitVec.extractLsb'_toNat, packWord_toNat, Nat.shiftRight_eq_div_pow]
  omega

@[simp] theorem bField_packWord (op a b c : Byte) : bField (packWord op a b c) = b := by
  apply BitVec.eq_of_toNat_eq
  simp only [bField, BitVec.extractLsb'_toNat, packWord_toNat, Nat.shiftRight_eq_div_pow]
  omega

@[simp] theorem cField_packWord (op a b c : Byte) : cField (packWord op a b c) = c := by
  apply BitVec.eq_of_toNat_eq
  simp only [cField, BitVec.extractLsb'_toNat, packWord_toNat, Nat.shiftRight_eq_div_pow]
  omega

theorem selField_eq (w : Word) : selField w = if (cField w).getLsbD 0 then .fbuf else .pbuf := by
  simp [selField, cField]

@[simp] theorem selField_packWord (op a b : Byte) (sel : Buf) : selField (packWord op a b (selByte sel)) = sel := by
  rw [selField_eq, cField_packWord]
  cases sel <;> simp [selByte]

/-- A word is its four fields. -/
theorem packWord_fields (w : Word) : packWord (opField w) (aField w) (bField w) (cField w) = w := by
  apply BitVec.eq_of_toNat_eq
  rw [packWord_toNat]
  simp only [opField, aField, bField, cField, BitVec.extractLsb'_toNat, Nat.shiftRight_eq_div_pow]
  have := w.isLt
  omega

/-- No two rows of the opcode map have one OP. -/
theorem opcodeRows_pairwise : opcodeRows.Pairwise (fun r r' => r.op ≠ r'.op) := by decide

/-- The row of a word is the row of its OP field. -/
theorem opcodeRowOf_eq (w : Word) : opcodeRowOf w = opcodeRows.find? fun r => r.op == opField w := rfl

theorem opcodeRowOf_packWord (op a b c : Byte) :
    opcodeRowOf (packWord op a b c) = opcodeRows.find? fun r => r.op == op := by
  rw [opcodeRowOf_eq, opField_packWord]

/-- A bitwise and of packed words is the packed ands. -/
theorem packWord_and (op a b c op' a' b' c' : Byte) :
    packWord op a b c &&& packWord op' a' b' c' = packWord (op &&& op') (a &&& a') (b &&& b') (c &&& c') := by
  show ((c ++ b ++ a ++ op : BitVec (8 + 8 + 8 + 8)) &&& (c' ++ b' ++ a' ++ op')) = _
  rw [BitVec.and_append, BitVec.and_append, BitVec.and_append]
  rfl

end Sys2Proof
end

