-- ==== Sys2Proof/Laws/Memory.lean ====
section
/-! SUPPORT. The two laws of a buffer's cells (a read after a write), and that a write keeps the canonical form. -/

namespace Sys2Proof.Machine

@[simp] theorem get_put_same (m : Memory) (o : Nat) (v : Byte) : (m.put o v).get? o = some v := by
  induction m with
  | nil => simp [Memory.put, Memory.get?]
  | cons c m ih =>
    obtain ⟨a, w⟩ := c
    simp only [Memory.put]
    split
    · simp [Memory.get?]
    · split
      · simp [Memory.get?]
      · simp [Memory.get?, *]

theorem get_put_ne (m : Memory) {o o' : Nat} (v : Byte) (h : o' ≠ o) : (m.put o v).get? o' = m.get? o' := by
  induction m with
  | nil => simp [Memory.put, Memory.get?, h]
  | cons c m ih =>
    obtain ⟨a, w⟩ := c
    simp only [Memory.put]
    split
    · simp [Memory.get?, h]
    · split
      · subst_vars; simp [Memory.get?, h]
      · simp [Memory.get?, ih]

theorem put_wfFrom {lo o : Nat} (v : Byte) (m : Memory) (h : m.wfFrom lo = true) (ho : lo ≤ o) :
    (m.put o v).wfFrom lo = true := by
  induction m generalizing lo with
  | nil => simp [Memory.put, Memory.wfFrom, ho]
  | cons c m ih =>
    obtain ⟨a, w⟩ := c
    simp only [Memory.wfFrom, Bool.and_eq_true, decide_eq_true_eq] at h
    simp only [Memory.put]
    split
    · simp only [Memory.wfFrom, Bool.and_eq_true, decide_eq_true_eq]
      exact ⟨ho, by omega, h.2⟩
    · split
      · subst_vars; simp [Memory.wfFrom, h]
      · simp only [Memory.wfFrom, Bool.and_eq_true, decide_eq_true_eq]
        exact ⟨h.1, ih h.2 (by omega)⟩

/-- A write keeps the canonical form. -/
theorem put_wf (m : Memory) (o : Nat) (v : Byte) (h : m.wf = true) : (m.put o v).wf = true :=
  put_wfFrom v m h (Nat.zero_le o)

/-- A write inside the buffer lists no offset outside it. -/
theorem put_below {n o : Nat} (v : Byte) (m : Memory) (h : m.below n = true) (ho : o < n) :
    (m.put o v).below n = true := by
  induction m with
  | nil => simp [Memory.put, Memory.below, ho]
  | cons c m ih =>
    obtain ⟨a, w⟩ := c
    simp only [Memory.below, Bool.and_eq_true, decide_eq_true_eq] at h
    simp only [Memory.put]
    split
    · simp [Memory.below, h, ho]
    · split
      · simp [Memory.below, h, ho]
      · simp [Memory.below, h, ih]

/-- An offset below every listed one has no byte. -/
theorem get_none_of_wfFrom {lo o : Nat} (m : Memory) (h : m.wfFrom lo = true) (ho : o < lo) : m.get? o = none := by
  induction m generalizing lo with
  | nil => rfl
  | cons c m ih =>
    obtain ⟨a, w⟩ := c
    simp only [Memory.wfFrom, Bool.and_eq_true, decide_eq_true_eq] at h
    have : o ≠ a := by omega
    simp [Memory.get?, this, ih h.2 (by omega)]

/-- Equal memories are equal data: canonical memories that read the same are the same list. -/
theorem memory_ext {lo : Nat} (m m' : Memory) (h : m.wfFrom lo = true) (h' : m'.wfFrom lo = true)
    (hg : ∀ o, m.get? o = m'.get? o) : m = m' := by
  induction m generalizing lo m' with
  | nil =>
    cases m' with
    | nil => rfl
    | cons c m' => have := hg c.1; simp [Memory.get?] at this
  | cons c m ih =>
    obtain ⟨a, w⟩ := c
    cases m' with
    | nil => have := hg a; simp [Memory.get?] at this
    | cons c' m' =>
      obtain ⟨a', w'⟩ := c'
      simp only [Memory.wfFrom, Bool.and_eq_true, decide_eq_true_eq] at h h'
      have haa : a = a' := by
        rcases Nat.lt_trichotomy a a' with hlt | heq | hgt
        · have := hg a
          simp [Memory.get?, Nat.ne_of_lt hlt, get_none_of_wfFrom m' h'.2 (by omega : a < a' + 1)] at this
        · exact heq
        · have := hg a'
          simp [Memory.get?, Nat.ne_of_lt hgt, get_none_of_wfFrom m h.2 (by omega : a' < a + 1)] at this
      subst haa
      have hw := hg a
      simp only [Memory.get?, if_true, Option.some.injEq] at hw
      subst hw
      congr 1
      refine ih m' h.2 h'.2 fun o => ?_
      by_cases hoa : o = a
      · subst hoa
        rw [get_none_of_wfFrom m h.2 (by omega), get_none_of_wfFrom m' h'.2 (by omega)]
      · have := hg o
        simpa [Memory.get?, hoa] using this

end Sys2Proof.Machine
end

