-- ==== Sys2Proof/Laws/State.lean ====
section
/-! SUPPORT. One lemma per field and update of State. -/

namespace Sys2Proof.Machine

variable (s : State)

@[simp] theorem setCells_params (b : Buf) (m : Memory) : (s.setCells b m).params = s.params := by cases b <;> rfl
@[simp] theorem setCells_status (b : Buf) (m : Memory) : (s.setCells b m).status = s.status := by cases b <;> rfl
@[simp] theorem setCells_latch (b : Buf) (m : Memory) : (s.setCells b m).latch = s.latch := by cases b <;> rfl
@[simp] theorem setCells_turns (b : Buf) (m : Memory) : (s.setCells b m).turns = s.turns := by cases b <;> rfl
@[simp] theorem setCells_readData (b : Buf) (m : Memory) : (s.setCells b m).readData = s.readData := by cases b <;> rfl
@[simp] theorem setCells_cells_same (b : Buf) (m : Memory) : (s.setCells b m).cells b = m := by cases b <;> rfl
theorem setCells_cells_ne {b b' : Buf} (m : Memory) (h : b' ≠ b) : (s.setCells b m).cells b' = s.cells b' := by
  cases b <;> cases b' <;> first | rfl | exact absurd rfl h

@[simp] theorem size_pbuf : s.size .pbuf = 64 := rfl
@[simp] theorem size_fbuf : s.size .fbuf = s.params.frameSize := rfl
@[simp] theorem cells_pbuf : s.cells .pbuf = s.pbuf := rfl
@[simp] theorem cells_fbuf : s.cells .fbuf = s.fbuf := rfl

theorem memWrite_eq (b : Buf) (o : Nat) (v : Byte) :
    s.memWrite b o v = s.setCells b (if o < s.size b then (s.cells b).put o v else s.cells b) := by
  unfold State.memWrite; split <;> cases b <;> rfl

@[simp] theorem memWrite_params (b : Buf) (o : Nat) (v : Byte) : (s.memWrite b o v).params = s.params := by
  simp [memWrite_eq]
@[simp] theorem memWrite_status (b : Buf) (o : Nat) (v : Byte) : (s.memWrite b o v).status = s.status := by
  simp [memWrite_eq]
@[simp] theorem memWrite_latch (b : Buf) (o : Nat) (v : Byte) : (s.memWrite b o v).latch = s.latch := by
  simp [memWrite_eq]
@[simp] theorem memWrite_turns (b : Buf) (o : Nat) (v : Byte) : (s.memWrite b o v).turns = s.turns := by
  simp [memWrite_eq]
@[simp] theorem memWrite_readData (b : Buf) (o : Nat) (v : Byte) : (s.memWrite b o v).readData = s.readData := by
  simp [memWrite_eq]
@[simp] theorem memWrite_size (b b' : Buf) (o : Nat) (v : Byte) : (s.memWrite b o v).size b' = s.size b' := by
  cases b' <;> simp
@[simp] theorem memWrite_pbuf_fbuf (o : Nat) (v : Byte) : (s.memWrite .pbuf o v).fbuf = s.fbuf := by
  unfold State.memWrite; split <;> rfl
@[simp] theorem memWrite_fbuf_pbuf (o : Nat) (v : Byte) : (s.memWrite .fbuf o v).pbuf = s.pbuf := by
  unfold State.memWrite; split <;> rfl

@[simp] theorem writeBytes_params (b : Buf) (o : Nat) (vs : List Byte) : (s.writeBytes b o vs).params = s.params := by
  induction vs generalizing s o with
  | nil => rfl
  | cons v vs ih => simp [State.writeBytes, ih]
@[simp] theorem writeBytes_status (b : Buf) (o : Nat) (vs : List Byte) : (s.writeBytes b o vs).status = s.status := by
  induction vs generalizing s o with
  | nil => rfl
  | cons v vs ih => simp [State.writeBytes, ih]
@[simp] theorem writeBytes_latch (b : Buf) (o : Nat) (vs : List Byte) : (s.writeBytes b o vs).latch = s.latch := by
  induction vs generalizing s o with
  | nil => rfl
  | cons v vs ih => simp [State.writeBytes, ih]
@[simp] theorem writeBytes_turns (b : Buf) (o : Nat) (vs : List Byte) : (s.writeBytes b o vs).turns = s.turns := by
  induction vs generalizing s o with
  | nil => rfl
  | cons v vs ih => simp [State.writeBytes, ih]
@[simp] theorem writeBytes_readData (b : Buf) (o : Nat) (vs : List Byte) :
    (s.writeBytes b o vs).readData = s.readData := by
  induction vs generalizing s o with
  | nil => rfl
  | cons v vs ih => simp [State.writeBytes, ih]
@[simp] theorem writeBytes_size (b b' : Buf) (o : Nat) (vs : List Byte) : (s.writeBytes b o vs).size b' = s.size b' := by
  cases b' <;> simp
@[simp] theorem writeBytes_pbuf_fbuf (o : Nat) (vs : List Byte) : (s.writeBytes .pbuf o vs).fbuf = s.fbuf := by
  induction vs generalizing s o with
  | nil => rfl
  | cons v vs ih => simp [State.writeBytes, ih]
@[simp] theorem writeBytes_fbuf_pbuf (o : Nat) (vs : List Byte) : (s.writeBytes .fbuf o vs).pbuf = s.pbuf := by
  induction vs generalizing s o with
  | nil => rfl
  | cons v vs ih => simp [State.writeBytes, ih]

@[simp] theorem respond_params (w : Word) : (s.respond w).params = s.params := rfl
@[simp] theorem respond_status (w : Word) : (s.respond w).status = s.status := rfl
@[simp] theorem respond_latch (w : Word) : (s.respond w).latch = s.latch := rfl
@[simp] theorem respond_pbuf (w : Word) : (s.respond w).pbuf = s.pbuf := rfl
@[simp] theorem respond_fbuf (w : Word) : (s.respond w).fbuf = s.fbuf := rfl
@[simp] theorem respond_turns (w : Word) : (s.respond w).turns = s.turns := rfl
@[simp] theorem respond_readData (w : Word) : (s.respond w).readData = some w := rfl

@[simp] theorem issue_params (w : Word) : (s.issue w).params = s.params := rfl
@[simp] theorem issue_status (w : Word) : (s.issue w).status = .issued := rfl
@[simp] theorem issue_latch (w : Word) : (s.issue w).latch = w := rfl
@[simp] theorem issue_pbuf (w : Word) : (s.issue w).pbuf = s.pbuf := rfl
@[simp] theorem issue_fbuf (w : Word) : (s.issue w).fbuf = s.fbuf := rfl
@[simp] theorem issue_turns (w : Word) : (s.issue w).turns = s.turns := rfl
@[simp] theorem issue_readData (w : Word) : (s.issue w).readData = s.readData := rfl

@[simp] theorem resetEvent_params : s.resetEvent.params = s.params := rfl
@[simp] theorem resetEvent_status : s.resetEvent.status = .zero := rfl
@[simp] theorem resetEvent_latch : s.resetEvent.latch = 0#32 := rfl
@[simp] theorem resetEvent_pbuf : s.resetEvent.pbuf = [] := rfl
@[simp] theorem resetEvent_fbuf : s.resetEvent.fbuf = [] := rfl
@[simp] theorem resetEvent_turns : s.resetEvent.turns = s.turns := rfl
@[simp] theorem resetEvent_readData : s.resetEvent.readData = none := rfl

end Sys2Proof.Machine
end

