-- ==== Sys2Proof/Laws/Ops.lean ====
section
/-! SUPPORT. What each shared operation can do, said once: one byte and ranges of bytes after writes, the CRC of a range,
the end of a frame. -/

namespace Sys2Proof.Machine

variable {s : State} {b b' : Buf} {o o' n : Nat} {v : Byte}

/-! ### One byte -/

theorem memRead_eq (s : State) (b : Buf) (o : Nat) :
    s.memRead b o =
      match s.byte b o with
      | some v => .ok v
      | none => .error (if o < s.size b then .unwrittenRead s else .frameSourceOverrun s) := by
  unfold State.memRead State.byte
  split
  · cases (s.cells b).get? o <;> rfl
  · rfl

theorem memRead_of_byte (h : s.byte b o = some v) : s.memRead b o = .ok v := by simp [memRead_eq, h]

theorem memRead_ok_iff : s.memRead b o = .ok v ↔ s.byte b o = some v := by
  rw [memRead_eq]; cases s.byte b o <;> simp

theorem memRead_unwritten (h : s.byte b o = none) (ho : o < s.size b) : s.memRead b o = .error (.unwrittenRead s) := by
  simp [memRead_eq, h, ho]

/-- The two ways a read faults. -/
theorem memRead_error {f : Fault} (h : s.memRead b o = .error f) :
    s.byte b o = none ∧ (o < s.size b ∧ f = .unwrittenRead s ∨ s.size b ≤ o ∧ f = .frameSourceOverrun s) := by
  rw [memRead_eq] at h
  cases hb : s.byte b o with
  | some w => simp [hb] at h
  | none =>
    refine ⟨rfl, ?_⟩
    simp only [hb] at h
    split at h
    · exact .inl ⟨‹_›, by cases h; rfl⟩
    · exact .inr ⟨by omega, by cases h; rfl⟩

theorem byte_lt_size (h : s.byte b o = some v) : o < s.size b := by
  unfold State.byte at h; split at h
  · assumption
  · cases h

@[simp] theorem size_congr {t : State} (h : t.params = s.params) : t.size b = s.size b := by
  cases b <;> simp [h]

theorem byte_congr {t : State} (hp : t.params = s.params) (hc : t.cells b = s.cells b) : t.byte b o = s.byte b o := by
  simp [State.byte, hc, size_congr hp]

/-- A byte does not depend on STATUS. -/
@[simp] theorem byte_setStatus (s : State) (st : Status) (b : Buf) (o : Nat) :
    ({ s with status := st } : State).byte b o = s.byte b o := byte_congr rfl (by cases b <;> rfl)

@[simp] theorem holds_setStatus (s : State) (st : Status) (b : Buf) (o : Nat) (vs : List Byte) :
    ({ s with status := st } : State).Holds b o vs ↔ s.Holds b o vs := by simp [State.Holds]

theorem byte_memWrite_same (ho : o < s.size b) : (s.memWrite b o v).byte b o = some v := by
  simp [State.byte, memWrite_eq, ho, size_congr (s := s)]

theorem byte_memWrite_ne (h : o' ≠ o) : (s.memWrite b o v).byte b o' = s.byte b o' := by
  simp only [State.byte, memWrite_size]
  split
  · rw [memWrite_eq, setCells_cells_same]
    split
    · exact get_put_ne _ _ h
    · rfl
  · rfl

theorem byte_memWrite_other (h : b' ≠ b) : (s.memWrite b o v).byte b' o' = s.byte b' o' :=
  byte_congr (by simp) (by rw [memWrite_eq, setCells_cells_ne _ _ h])

/-! ### Ranges of bytes -/

theorem holds_nil (s : State) (b : Buf) (o : Nat) : s.Holds b o [] := fun _ hk => absurd hk (Nat.not_lt_zero _)

theorem holds_cons {v : Byte} {vs : List Byte} :
    s.Holds b o (v :: vs) ↔ s.byte b o = some v ∧ s.Holds b (o + 1) vs := by
  constructor
  · intro h
    refine ⟨by simpa using h 0 (by simp), fun k hk => ?_⟩
    have := h (k + 1) (by simpa using hk)
    simpa [Nat.add_assoc, Nat.add_comm 1] using this
  · rintro ⟨h0, h1⟩ k hk
    cases k with
    | zero => simpa using h0
    | succ k =>
      have := h1 k (by simpa using hk)
      simpa [Nat.add_assoc, Nat.add_comm 1] using this

theorem holds_append {vs ws : List Byte} :
    s.Holds b o (vs ++ ws) ↔ s.Holds b o vs ∧ s.Holds b (o + vs.length) ws := by
  induction vs generalizing o with
  | nil => simp [holds_nil]
  | cons v vs ih => simp [holds_cons, ih, and_assoc, Nat.add_assoc, Nat.add_comm 1]

theorem holds_congr {t : State} {vs : List Byte} (h : ∀ k, k < vs.length → t.byte b (o + k) = s.byte b (o + k))
    (hs : s.Holds b o vs) : t.Holds b o vs := fun k hk => by rw [h k hk, hs k hk]

/-- Two lists of one length held at one place are the same. -/
theorem holds_unique {vs ws : List Byte} (h : s.Holds b o vs) (h' : s.Holds b o ws) (hl : vs.length = ws.length) :
    vs = ws := by
  apply List.ext_getElem? fun k => ?_
  by_cases hk : k < vs.length
  · rw [← h k hk, ← h' k (hl ▸ hk)]
  · rw [List.getElem?_eq_none (by omega), List.getElem?_eq_none (by omega)]

theorem holds_bound {vs : List Byte} (h : s.Holds b o vs) (hv : 0 < vs.length) : o + vs.length ≤ s.size b := by
  have hk := h (vs.length - 1) (by omega)
  rw [List.getElem?_eq_getElem (by omega)] at hk
  have := byte_lt_size hk
  omega

/-- Reading a range gives exactly the bytes it holds. -/
theorem readRange_ok_iff {vs : List Byte} : s.readRange b o n = .ok vs ↔ vs.length = n ∧ s.Holds b o vs := by
  induction n generalizing o vs with
  | zero => cases vs <;> simp [State.readRange, holds_nil]
  | succ n ih =>
    rw [State.readRange]
    cases hm : s.memRead b o with
    | error f =>
      have := (memRead_error hm).1
      cases vs <;> simp [holds_cons, this]
    | ok w =>
      have hw := memRead_ok_iff.1 hm
      cases hr : s.readRange b (o + 1) n with
      | error f =>
        cases vs with
        | nil => simp
        | cons v vs =>
          simp only [reduceCtorEq, holds_cons, List.length_cons, Nat.add_right_cancel_iff, false_iff, not_and]
          intro hl _ hh
          have := ih.2 ⟨hl, hh⟩
          simp [hr] at this
      | ok ws =>
        have hi := ih.1 hr
        cases vs with
        | nil => simp
        | cons v vs =>
          simp only [Except.ok.injEq, List.cons.injEq, holds_cons, List.length_cons, Nat.add_right_cancel_iff, hw,
            Option.some.injEq]
          constructor
          · rintro ⟨rfl, rfl⟩; exact ⟨hi.1, rfl, hi.2⟩
          · rintro ⟨hl, rfl, hh⟩
            exact ⟨rfl, holds_unique hi.2 hh (by omega)⟩

theorem readRange_of_holds {vs : List Byte} (h : s.Holds b o vs) : s.readRange b o vs.length = .ok vs :=
  readRange_ok_iff.2 ⟨rfl, h⟩

/-- The two ways reading a range faults: the first byte that is missing is unwritten or outside the buffer. -/
theorem readRange_error {f : Fault} (h : s.readRange b o n = .error f) :
    ∃ k, k < n ∧ s.byte b (o + k) = none
      ∧ (o + k < s.size b ∧ f = .unwrittenRead s ∨ s.size b ≤ o + k ∧ f = .frameSourceOverrun s) := by
  induction n generalizing o with
  | zero => simp [State.readRange] at h
  | succ n ih =>
    rw [State.readRange] at h
    cases hm : s.memRead b o with
    | error g =>
      simp only [hm, Except.error.injEq] at h
      subst h
      have := memRead_error hm
      exact ⟨0, by omega, by simpa using this⟩
    | ok w =>
      simp only [hm] at h
      cases hr : s.readRange b (o + 1) n with
      | ok ws => simp [hr] at h
      | error g =>
        simp only [hr, Except.error.injEq] at h
        subst h
        obtain ⟨k, hk, hb, hf⟩ := ih hr
        exact ⟨k + 1, by omega, by simpa [Nat.add_assoc, Nat.add_comm 1] using hb,
          by simpa [Nat.add_assoc, Nat.add_comm 1] using hf⟩

theorem readRange_unwritten (h : s.SomeUnwritten b o n) : s.readRange b o n = .error (.unwrittenRead s) := by
  obtain ⟨hs, k, hk, hb⟩ := h
  cases hr : s.readRange b o n with
  | ok vs =>
    obtain ⟨hl, hh⟩ := readRange_ok_iff.1 hr
    have := hh k (by omega)
    rw [hb, List.getElem?_eq_getElem (by omega)] at this
    cases this
  | error f =>
    obtain ⟨j, hj, -, ⟨-, rfl⟩ | ⟨h1, -⟩⟩ := readRange_error hr
    · rfl
    · omega

/-- Reading a byte depends on that byte alone, but for the state a fault holds. -/
theorem memRead_congr {t : State} (hp : t.params = s.params) (h : t.byte b o = s.byte b o) :
    t.memRead b o = (s.memRead b o).mapError (·.withState t) := by
  rw [memRead_eq, memRead_eq, h, size_congr hp]
  cases s.byte b o with
  | none => by_cases ho : o < s.size b <;> simp [ho, Except.mapError, Fault.withState]
  | some v => rfl

/-- Reading a range depends on its bytes alone, but for the state a fault holds. -/
theorem readRange_congr {t : State} (hp : t.params = s.params)
    (h : ∀ k, k < n → t.byte b (o + k) = s.byte b (o + k)) :
    t.readRange b o n = (s.readRange b o n).mapError (·.withState t) := by
  induction n generalizing o with
  | zero => rfl
  | succ n ih =>
    have h0 := h 0 (by omega)
    rw [Nat.add_zero] at h0
    have h1 := ih (o := o + 1) fun k hk => by
      have := h (k + 1) (by omega)
      simpa [Nat.add_assoc, Nat.add_comm 1] using this
    rw [State.readRange, State.readRange, memRead_congr hp h0, h1]
    cases s.memRead b o with
    | error f => rfl
    | ok v => cases s.readRange b (o + 1) n <;> rfl

theorem byte_writeBytes_out {vs : List Byte} (h : o' < o ∨ o + vs.length ≤ o') :
    (s.writeBytes b o vs).byte b o' = s.byte b o' := by
  induction vs generalizing s o with
  | nil => rfl
  | cons v vs ih =>
    simp only [List.length_cons] at h
    rw [State.writeBytes, ih (by omega), byte_memWrite_ne (by omega)]

theorem byte_writeBytes_other {vs : List Byte} (h : b' ≠ b) : (s.writeBytes b o vs).byte b' o' = s.byte b' o' := by
  induction vs generalizing s o with
  | nil => rfl
  | cons v vs ih => rw [State.writeBytes, ih, byte_memWrite_other h]

/-- After a write of bytes inside the buffer, the buffer holds them. -/
theorem holds_writeBytes {vs : List Byte} (h : o + vs.length ≤ s.size b) : (s.writeBytes b o vs).Holds b o vs := by
  induction vs generalizing s o with
  | nil => exact holds_nil _ _ _
  | cons v vs ih =>
    simp only [List.length_cons] at h
    rw [State.writeBytes, holds_cons]
    refine ⟨?_, ih (by simp only [memWrite_size]; omega)⟩
    rw [byte_writeBytes_out (by omega), byte_memWrite_same (by omega)]

/-! ### Copying -/

/-- Copying from one buffer to the other: the bytes read, written in order. -/
theorem copyRange_ok (hb : b ≠ b') {vs : List Byte} (h : s.Holds b o vs) :
    s.copyRange b o b' o' vs.length = .ok (s.writeBytes b' o' vs) := by
  induction vs generalizing s o o' with
  | nil => rfl
  | cons v vs ih =>
    obtain ⟨h0, h1⟩ := holds_cons.1 h
    simp only [List.length_cons, State.copyRange, memRead_of_byte h0, State.writeBytes]
    exact ih (holds_congr (fun _ _ => byte_memWrite_other hb) h1)

/-- The one way copying faults: at the first byte that is missing, with the bytes before it copied. -/
theorem copyRange_error (hb : b ≠ b') {vs : List Byte} (h : s.Holds b o vs) (hn : s.byte b (o + vs.length) = none)
    (hl : vs.length < n) :
    s.copyRange b o b' o' n =
      .error (if o + vs.length < s.size b then .unwrittenRead (s.writeBytes b' o' vs)
        else .frameSourceOverrun (s.writeBytes b' o' vs)) := by
  induction vs generalizing s o o' n with
  | nil =>
    obtain ⟨n, rfl⟩ : ∃ m, n = m + 1 := ⟨n - 1, by simp at hl; omega⟩
    simp only [List.length_nil, Nat.add_zero] at hn
    simp [State.copyRange, memRead_eq, hn, State.writeBytes]
  | cons v vs ih =>
    simp only [List.length_cons] at hl hn
    obtain ⟨n, rfl⟩ : ∃ m, n = m + 1 := ⟨n - 1, by omega⟩
    obtain ⟨h0, h1⟩ := holds_cons.1 h
    simp only [List.length_cons, State.copyRange, memRead_of_byte h0, State.writeBytes]
    rw [ih (holds_congr (fun _ _ => byte_memWrite_other hb) h1)
      (by rw [byte_memWrite_other hb, ← hn]; congr 1; omega) (by omega), memWrite_size]
    have : o + 1 + vs.length = o + (vs.length + 1) := by omega
    simp only [this]

/-- A run of `n` bytes is written, or there is a first one that is not. -/
theorem holds_or_first (s : State) (b : Buf) (o n : Nat) :
    (∃ vs, vs.length = n ∧ s.Holds b o vs)
      ∨ ∃ vs, vs.length < n ∧ s.Holds b o vs ∧ s.byte b (o + vs.length) = none := by
  induction n with
  | zero => exact .inl ⟨[], rfl, holds_nil _ _ _⟩
  | succ n ih =>
    rcases ih with ⟨vs, rfl, h⟩ | ⟨vs, hl, h, hn⟩
    · cases hv : s.byte b (o + vs.length) with
      | none => exact .inr ⟨vs, by omega, h, hv⟩
      | some v =>
        exact .inl ⟨vs ++ [v], by simp, holds_append.2 ⟨h, holds_cons.2 ⟨hv, holds_nil _ _ _⟩⟩⟩
    · exact .inr ⟨vs, by omega, h, hn⟩

/-- What copying can do, said once. -/
theorem copyRange_cases (hb : b ≠ b') (o o' n : Nat) :
    (∃ vs, vs.length = n ∧ s.Holds b o vs ∧ s.copyRange b o b' o' n = .ok (s.writeBytes b' o' vs))
      ∨ ∃ vs, vs.length < n ∧ s.Holds b o vs ∧ s.byte b (o + vs.length) = none
        ∧ s.copyRange b o b' o' n =
          .error (if o + vs.length < s.size b then .unwrittenRead (s.writeBytes b' o' vs)
            else .frameSourceOverrun (s.writeBytes b' o' vs)) := by
  rcases holds_or_first s b o n with ⟨vs, rfl, h⟩ | ⟨vs, hl, h, hn⟩
  · exact .inl ⟨vs, rfl, h, copyRange_ok hb h⟩
  · exact .inr ⟨vs, hl, h, hn, copyRange_error hb h hn hl⟩

/-! ### The canonical form -/

/-- The part of the invariant about the buffers. -/
def State.BuffersOk (s : State) : Prop :=
  s.pbuf.wf = true ∧ s.pbuf.below maxTotal = true ∧ s.fbuf.wf = true ∧ s.fbuf.below s.params.frameSize = true

theorem memWrite_buffersOk (h : s.BuffersOk) : (s.memWrite b o v).BuffersOk := by
  obtain ⟨h1, h2, h3, h4⟩ := h
  unfold State.memWrite
  split
  · rename_i ho
    cases b
    · exact ⟨put_wf _ _ _ h1, put_below _ _ h2 ho, h3, h4⟩
    · exact ⟨h1, h2, put_wf _ _ _ h3, put_below _ _ h4 ho⟩
  · exact ⟨h1, h2, h3, h4⟩

theorem writeBytes_buffersOk {vs : List Byte} (h : s.BuffersOk) : (s.writeBytes b o vs).BuffersOk := by
  induction vs generalizing s o with
  | nil => exact h
  | cons v vs ih => exact ih (memWrite_buffersOk h)

/-! ### The CRC -/

theorem crcRun_append (p : Params) (r : Byte) (xs ys : List Byte) :
    crcRun p r (xs ++ ys) = crcRun p (crcRun p r xs) ys := by simp [crcRun]

theorem crcOf_append (p : Params) (xs ys : List Byte) : crcOf p (xs ++ ys) = crcRun p (crcOf p xs) ys :=
  crcRun_append _ _ _ _

@[simp] theorem crcRun_nil (p : Params) (r : Byte) : crcRun p r [] = r := rfl
@[simp] theorem crcRun_cons (p : Params) (r x : Byte) (xs : List Byte) :
    crcRun p r (x :: xs) = crcRun p (crcT p (r ^^^ x)) xs := rfl

theorem crcT_zero {p : Params} (h : p.crcZero = true) : crcT p 0#8 = 0#8 := by
  simpa [Params.crcZero, crcT, lowNibble, highNibble, Vector.get_eq_getElem] using h

theorem crc8_ok {vs : List Byte} (hn : vs.length = n) (h : s.Holds b o vs) :
    s.crc8 b o n = .ok (crcOf s.params vs) := by
  subst hn; simp [State.crc8, readRange_of_holds h]

theorem crc8_ok_iff : s.crc8 b o n = .ok v ↔ ∃ vs, vs.length = n ∧ s.Holds b o vs ∧ crcOf s.params vs = v := by
  rw [State.crc8]
  cases hr : s.readRange b o n with
  | error f =>
    simp only [reduceCtorEq, false_iff, not_exists, not_and]
    intro vs hl hh
    have := readRange_ok_iff.2 ⟨hl, hh⟩
    simp [hr] at this
  | ok ws =>
    obtain ⟨hl, hh⟩ := readRange_ok_iff.1 hr
    constructor
    · intro h; cases h; exact ⟨ws, hl, hh, rfl⟩
    · rintro ⟨vs, hl', hh', rfl⟩
      rw [holds_unique hh hh' (by omega)]

theorem crc8_error {f : Fault} (h : s.crc8 b o n = .error f) : s.readRange b o n = .error f := by
  unfold State.crc8 at h; split at h
  · cases h; assumption
  · cases h

theorem crc8_unwritten (h : s.SomeUnwritten b o n) : s.crc8 b o n = .error (.unwrittenRead s) := by
  simp [State.crc8, readRange_unwritten h]

/-! ### The end of a frame -/

theorem frameSize_cases (p : Params) :
    p.footerRev = .tagged ∧ p.frameSize = 21 ∧ p.frameCrcOffset = 20
      ∨ p.footerRev = .plain ∧ p.frameSize = 20 ∧ p.frameCrcOffset = 19 := by
  cases h : p.footerRev <;>
    simp [Params.frameSize, Params.frameCrcOffset, Params.frameFooterSize, h, frmHeaderSize, frmPayloadLen]

/-- The footer magic, written when TAGGED. -/
theorem sealFrame_eq (s : State) :
    s.sealFrame =
      match (s.writeBytes .fbuf 19 (if s.params.footerRev = .tagged then [0xAF#8] else [])).crc8 .fbuf 0
          s.params.frameCrcOffset with
      | .error f => .error f
      | .ok c =>
        .ok ((s.writeBytes .fbuf 19 (if s.params.footerRev = .tagged then [0xAF#8] else [])).memWrite .fbuf
          s.params.frameCrcOffset c) := by
  unfold State.sealFrame
  cases h : s.params.footerRev <;>
    simp [State.writeBytes, footerMagicOffset, frmHeaderSize, frmPayloadLen, frmFooterMagic] <;> rfl

/-- With the header and the payload in FBUF, sealing makes the frame of R78 or R79 and changes nothing else. -/
theorem sealFrame_holds {i fl : Byte} {d : List Byte} (hd : d.length = 16) (h : s.Holds .fbuf 0 ([0xAE#8, i, fl] ++ d)) :
    ∃ t, s.sealFrame = .ok t ∧ t.Holds .fbuf 0 (frameBytes s.params i fl d) ∧ t = { s with fbuf := t.fbuf } := by
  rw [sealFrame_eq]
  set ft : List Byte := if s.params.footerRev = .tagged then [0xAF#8] else [] with hft
  set s₁ := s.writeBytes .fbuf 19 ft with hs₁
  have hlen : 19 + ft.length = s.params.frameCrcOffset ∧ s.params.frameCrcOffset < s.params.frameSize := by
    rcases frameSize_cases s.params with ⟨h1, h2, h3⟩ | ⟨h1, h2, h3⟩ <;> simp [hft, h1, h2, h3]
  have hb : s₁.Holds .fbuf 0 ([0xAE#8, i, fl] ++ d ++ ft) := by
    rw [holds_append]
    refine ⟨holds_congr (fun k hk => ?_) h, ?_⟩
    · rw [hs₁, byte_writeBytes_out]; simp [hd] at hk; omega
    · have : 0 + ([0xAE#8, i, fl] ++ d).length = 19 := by simp [hd]
      rw [this]; exact holds_writeBytes (by simp only [size_fbuf]; omega)
  have hc := crc8_ok (n := s.params.frameCrcOffset) (by simp [hd]; omega) hb
  simp only [hc]
  refine ⟨_, rfl, ?_, ?_⟩
  · have hp : s₁.params = s.params := by simp [hs₁]
    simp only [frameBytes]
    rw [holds_append]
    refine ⟨holds_congr (fun k hk => byte_memWrite_ne ?_) (hft ▸ hb), ?_⟩
    · simp only [← hft, List.length_append, List.length_cons, List.length_nil, hd] at hk; omega
    · have : 0 + ([0xAE#8, i, fl] ++ d ++ if s.params.footerRev = .tagged then [0xAF#8] else []).length
          = s.params.frameCrcOffset := by rw [← hft]; simp [hd]; omega
      rw [this, holds_cons]
      refine ⟨?_, holds_nil _ _ _⟩
      rw [byte_memWrite_same (by simp only [size_fbuf, hp]; omega), hp, hft]
  · have hx : ∀ (t u : State), t.params = u.params → t.status = u.status → t.latch = u.latch → t.pbuf = u.pbuf →
        t.turns = u.turns → t.readData = u.readData → t = { u with fbuf := t.fbuf } := by
      rintro ⟨⟩ ⟨⟩ h1 h2 h3 h4 h5 h6; simp_all
    apply hx <;> simp [hs₁]

/-- Sealing answers a state only by writing FBUF. -/
theorem sealFrame_frame {t : State} (h : s.sealFrame = .ok t) :
    t.params = s.params ∧ t.status = s.status ∧ t.latch = s.latch ∧ t.pbuf = s.pbuf ∧ t.turns = s.turns
      ∧ t.readData = s.readData ∧ (s.BuffersOk → t.BuffersOk) := by
  rw [sealFrame_eq] at h
  split at h
  · cases h
  · cases h
    refine ⟨by simp, by simp, by simp, by simp, by simp, by simp, fun hs => ?_⟩
    exact memWrite_buffersOk (writeBytes_buffersOk hs)

/-! ### Going on after a read -/

@[simp] theorem orFault_ok {α : Type} (a : α) (k : α → Result) : orFault (.ok a) k = k a := rfl
@[simp] theorem orFault_error {α : Type} (f : Fault) (k : α → Result) : orFault (.error f) k = .fault f := rfl

/-- A next state comes from a value that was read. -/
theorem orFault_next {α : Type} {r : Except Fault α} {k : α → Result} {t : State} (h : orFault r k = .next t) :
    ∃ a, r = .ok a ∧ k a = .next t := by
  cases r with
  | error f => cases h
  | ok a => exact ⟨a, rfl, h⟩

theorem orFault_fault {α : Type} {r : Except Fault α} {k : α → Result} {f : Fault} (h : orFault r k = .fault f) :
    r = .error f ∨ ∃ a, r = .ok a ∧ k a = .fault f := by
  cases r with
  | error g => cases h; exact .inl rfl
  | ok a => exact .inr ⟨a, rfl, h⟩

theorem orFault_refused {α : Type} {r : Except Fault α} {k : α → Result} {f : Refusal} (h : orFault r k = .refused f) :
    ∃ a, r = .ok a ∧ k a = .refused f := by
  cases r with
  | error f => cases h
  | ok a => exact ⟨a, rfl, h⟩

end Sys2Proof.Machine
end

