-- ==== Sys2Proof/Laws/Exec.lean ====
section
/-! SUPPORT. What a command can do when it answers a next state, and when it faults, said once for all twelve
(spec/10_state.md R31, spec/60_exceptions.md R166, R174): the case splits on the command are made here and nowhere else. -/

namespace Sys2Proof.Machine

/-- States that differ in their buffers alone. -/
theorem state_eq_buffers {t u : State} (h1 : t.params = u.params) (h2 : t.status = u.status) (h3 : t.latch = u.latch)
    (h4 : t.turns = u.turns) (h5 : t.readData = u.readData) : t = { u with pbuf := t.pbuf, fbuf := t.fbuf } :=
  State.ext h1 h2 h3 rfl rfl h4 h5

theorem finish_next {s t : State} {ok more : Bool} {e : ErrCode} {v : Byte} (h : s.finish ok more e v = .next t) :
    t = { s with status := Status.finished ok more e v } := by cases h; rfl

/-- A successful completion: STATUS, and buffer bytes of the write set alone. -/
def Succeeds (i : Instr) (s t : State) : Prop :=
  ∃ (more : Bool) (v : Byte) (s' : State), t = { s' with status := Status.finished true more .none v }
    ∧ s' = { s with pbuf := s'.pbuf, fbuf := s'.fbuf } ∧ (s.BuffersOk → s'.BuffersOk)
    ∧ (more = true → (∃ a b, i = .frmBuild a b) ∨ i = .frmReconstruct)
    ∧ ((∀ a b c, i ≠ .pktConstruct a b c) → i ≠ .frmReconstruct → s'.pbuf = s.pbuf)
    ∧ ((∀ a b, i ≠ .frmBuild a b) → i ≠ .frmBuildResend → s'.fbuf = s.fbuf)

/-- A command that answers a next state fails, changing STATUS alone, or succeeds. -/
theorem exec_cases {i : Instr} {s t : State} (h : exec i s = .next t) :
    (∃ e : ErrCode, e ≠ .none ∧ t = { s with status := Status.finished false false e 0#8 }) ∨ Succeeds i s t := by
  have same : ∀ v, t = { s with status := Status.finished true false .none v } → Succeeds i s t :=
    fun v h => ⟨false, v, s, h, rfl, id, by simp, fun _ _ => rfl, fun _ _ => rfl⟩
  cases i with
  | crc8 a b sel =>
    simp only [exec, execCrc8] at h
    split at h
    · exact .inl ⟨_, by decide, finish_next h⟩
    · obtain ⟨v, -, h⟩ := orFault_next h; exact .inr (same _ (finish_next h))
  | pktConstruct a b c =>
    simp only [exec, execPktConstruct] at h
    split at h
    · exact .inl ⟨_, by decide, finish_next h⟩
    · obtain ⟨v, -, h⟩ := orFault_next h
      refine .inr ⟨_, _, _, finish_next h, state_eq_buffers (by simp) (by simp) (by simp) (by simp) (by simp), ?_, by simp, by simp, by simp⟩
      exact fun hs => memWrite_buffersOk (writeBytes_buffersOk hs)
  | pktValidate =>
    simp only [exec, execPktValidate] at h
    obtain ⟨m, -, h⟩ := orFault_next h
    split at h
    · exact .inl ⟨_, by decide, finish_next h⟩
    obtain ⟨l, -, h⟩ := orFault_next h
    split at h
    · exact .inl ⟨_, by decide, finish_next h⟩
    obtain ⟨c, -, h⟩ := orFault_next h
    split at h
    · exact .inl ⟨_, by decide, finish_next h⟩
    · exact .inr (same _ (finish_next h))
  | pktGetType => obtain ⟨v, -, h⟩ := orFault_next h; exact .inr (same _ (finish_next h))
  | pktGetFlags => obtain ⟨v, -, h⟩ := orFault_next h; exact .inr (same _ (finish_next h))
  | pktGetPayloadSize => obtain ⟨v, -, h⟩ := orFault_next h; exact .inr (same _ (finish_next h))
  | frmValidate =>
    simp only [exec, execFrmValidate, checkFrameCrc] at h
    obtain ⟨m, -, h⟩ := orFault_next h
    split at h
    · exact .inl ⟨_, by decide, finish_next h⟩
    obtain ⟨l, -, h⟩ := orFault_next h
    split at h
    · exact .inl ⟨_, by decide, finish_next h⟩
    split at h
    · obtain ⟨c, -, h⟩ := orFault_next h
      split at h
      · exact .inl ⟨_, by decide, finish_next h⟩
      obtain ⟨c, -, h⟩ := orFault_next h
      split at h
      · exact .inl ⟨_, by decide, finish_next h⟩
      · exact .inr (same _ (finish_next h))
    · obtain ⟨c, -, h⟩ := orFault_next h
      split at h
      · exact .inl ⟨_, by decide, finish_next h⟩
      · exact .inr (same _ (finish_next h))
  | frmIsResend => obtain ⟨v, -, h⟩ := orFault_next h; exact .inr (same _ (finish_next h))
  | frmGetIndex => obtain ⟨v, -, h⟩ := orFault_next h; exact .inr (same _ (finish_next h))
  | frmBuild a b =>
    simp only [exec, execFrmBuild] at h
    obtain ⟨l, -, h⟩ := orFault_next h
    split at h
    · refine .inl ⟨.sizeBounds, by decide, ?_⟩
      have : moreToBuild b l = false := by simp [moreToBuild]; omega
      rw [finish_next h, this]
    · obtain ⟨d, -, h⟩ := orFault_next h
      obtain ⟨u, hu, h⟩ := orFault_next h
      obtain ⟨h1, h2, h3, h4, h5, h6, h7⟩ := sealFrame_frame hu
      refine .inr ⟨_, _, _, finish_next h, state_eq_buffers (by simp [h1]) (by simp [h2]) (by simp [h3]) (by simp [h5]) (by simp [h6]), ?_, by simp, by simp [h4], by simp⟩
      exact fun hs => h7 (writeBytes_buffersOk hs)
  | frmBuildResend =>
    simp only [exec, execFrmBuildResend] at h
    obtain ⟨u, hu, h⟩ := orFault_next h
    obtain ⟨h1, h2, h3, h4, h5, h6, h7⟩ := sealFrame_frame hu
    refine .inr ⟨_, _, _, finish_next h, state_eq_buffers (by simp [h1]) (by simp [h2]) (by simp [h3]) (by simp [h5]) (by simp [h6]), ?_, by simp, by simp [h4], by simp⟩
    exact fun hs => h7 (writeBytes_buffersOk hs)
  | frmReconstruct =>
    simp only [exec, execFrmReconstruct] at h
    obtain ⟨l, -, h⟩ := orFault_next h
    obtain ⟨d, -, h⟩ := orFault_next h
    obtain ⟨u, hu, h⟩ := orFault_next h
    rcases copyRange_cases (s := s) (b := .fbuf) (b' := .pbuf) (by decide) frmPayloadOffset (sliceOffset l)
      (sliceCount l maxTotal) with ⟨vs, -, -, hc⟩ | ⟨vs, -, -, -, hc⟩ <;> rw [hc] at hu <;> cases hu
    refine .inr ⟨_, _, _, finish_next h, state_eq_buffers (by simp) (by simp) (by simp) (by simp) (by simp), ?_,
      by simp, by simp, by simp⟩
    exact fun hs => (writeBytes_buffersOk hs)

/-- A finishing completion never faults. -/
theorem finish_fault {s : State} {ok more : Bool} {e : ErrCode} {v : Byte} {f : Fault} :
    s.finish ok more e v ≠ .fault f := nofun

/-- The faulted state of a command that faults: nothing but buffer bytes has changed (R174). -/
def Faults (s : State) (f : Fault) : Prop :=
  f.state = { s with pbuf := f.state.pbuf, fbuf := f.state.fbuf }

theorem faults_memRead {s : State} {b : Buf} {o : Nat} {f : Fault} (h : s.memRead b o = .error f) : f.state = s := by
  rcases memRead_error h with ⟨-, ⟨-, rfl⟩ | ⟨-, rfl⟩⟩ <;> rfl

theorem faults_readRange {s : State} {b : Buf} {o n : Nat} {f : Fault} (h : s.readRange b o n = .error f) :
    f.state = s := by
  obtain ⟨k, -, -, ⟨-, rfl⟩ | ⟨-, rfl⟩⟩ := readRange_error h <;> rfl

theorem faults_crc8 {s : State} {b : Buf} {o n : Nat} {f : Fault} (h : s.crc8 b o n = .error f) : f.state = s :=
  faults_readRange (crc8_error h)

theorem faults_slice {s : State} {i l : Byte} {f : Fault} (h : s.slice i l = .error f) : f.state = s := by
  unfold State.slice at h
  split at h
  · cases h; exact faults_readRange ‹_›
  · cases h

theorem faults_sealFrame {s : State} {f : Fault} (h : s.sealFrame = .error f) : Faults s f := by
  rw [sealFrame_eq] at h
  split at h
  · cases h
    rename_i hc
    have := faults_crc8 hc
    exact state_eq_buffers (by simp [this]) (by simp [this]) (by simp [this]) (by simp [this]) (by simp [this])
  · cases h

theorem faults_same {s : State} {f : Fault} (h : f.state = s) : Faults s f := by
  rw [Faults, h]

theorem faults_writeBytes {s : State} {b : Buf} {o : Nat} {vs : List Byte} {f : Fault}
    (h : Faults (s.writeBytes b o vs) f) : Faults s f := by
  unfold Faults at h ⊢
  exact state_eq_buffers (by rw [h]; simp) (by rw [h]; simp) (by rw [h]; simp) (by rw [h]; simp) (by rw [h]; simp)

/-- A command that faults has changed nothing but buffer bytes. -/
theorem exec_faults {i : Instr} {s : State} {f : Fault} (h : exec i s = .fault f) : Faults s f := by
  have one : ∀ {b : Buf} {o : Nat} {k : Byte → Result}, (∀ v, k v ≠ .fault f) → orFault (s.memRead b o) k = .fault f →
      Faults s f := fun hk h => by
    rcases orFault_fault h with h | ⟨a, -, h⟩
    · exact faults_same (faults_memRead h)
    · exact absurd h (hk a)
  cases i with
  | crc8 a b sel =>
    simp only [exec, execCrc8] at h
    split at h
    · cases h
    · rcases orFault_fault h with h | ⟨v, -, h⟩
      · exact faults_same (faults_crc8 h)
      · cases h
  | pktConstruct a b c =>
    simp only [exec, execPktConstruct] at h
    split at h
    · cases h
    · rcases orFault_fault h with h | ⟨v, -, h⟩
      · exact faults_writeBytes (faults_same (faults_crc8 h))
      · cases h
  | pktValidate =>
    simp only [exec, execPktValidate] at h
    rcases orFault_fault h with h | ⟨m, -, h⟩
    · exact faults_same (faults_memRead h)
    split at h
    · cases h
    rcases orFault_fault h with h | ⟨l, -, h⟩
    · exact faults_same (faults_memRead h)
    split at h
    · cases h
    rcases orFault_fault h with h | ⟨c, -, h⟩
    · exact faults_same (faults_crc8 h)
    split at h <;> cases h
  | pktGetType => exact one (fun _ => finish_fault) h
  | pktGetFlags => exact one (fun _ => finish_fault) h
  | pktGetPayloadSize => exact one (fun _ => finish_fault) h
  | frmValidate =>
    have last : checkFrameCrc s = .fault f → Faults s f := fun h => by
      rcases orFault_fault h with h | ⟨c, -, h⟩
      · exact faults_same (faults_crc8 h)
      · split at h <;> cases h
    simp only [exec, execFrmValidate] at h
    rcases orFault_fault h with h | ⟨m, -, h⟩
    · exact faults_same (faults_memRead h)
    split at h
    · cases h
    rcases orFault_fault h with h | ⟨l, -, h⟩
    · exact faults_same (faults_memRead h)
    split at h
    · cases h
    split at h
    · rcases orFault_fault h with h | ⟨c, -, h⟩
      · exact faults_same (faults_memRead h)
      split at h
      · cases h
      · exact last h
    · exact last h
  | frmIsResend => exact one (fun _ => finish_fault) h
  | frmGetIndex => exact one (fun _ => finish_fault) h
  | frmBuild a b =>
    simp only [exec, execFrmBuild] at h
    rcases orFault_fault h with h | ⟨l, -, h⟩
    · exact faults_same (faults_memRead h)
    split at h
    · cases h
    rcases orFault_fault h with h | ⟨d, -, h⟩
    · exact faults_same (faults_slice h)
    rcases orFault_fault h with h | ⟨u, -, h⟩
    · exact faults_writeBytes (faults_sealFrame h)
    · cases h
  | frmBuildResend =>
    simp only [exec, execFrmBuildResend] at h
    rcases orFault_fault h with h | ⟨u, -, h⟩
    · exact faults_writeBytes (faults_sealFrame h)
    · cases h
  | frmReconstruct =>
    simp only [exec, execFrmReconstruct] at h
    rcases orFault_fault h with h | ⟨i, -, h⟩
    · exact faults_same (faults_memRead h)
    rcases orFault_fault h with h | ⟨fl, -, h⟩
    · exact faults_same (faults_memRead h)
    rcases orFault_fault h with h | ⟨u, -, h⟩
    · rcases copyRange_cases (s := s) (b := .fbuf) (b' := .pbuf) (by decide) frmPayloadOffset (sliceOffset i)
        (sliceCount i maxTotal) with ⟨vs, -, -, hc⟩ | ⟨vs, -, -, -, hc⟩ <;> rw [hc] at h <;> cases h
      split <;> exact faults_writeBytes (faults_same rfl)
    · cases h

end Sys2Proof.Machine
end

