-- ==== Sys2Proof/Laws/PerInstr.lean ====
section
/-! SUPPORT. The family EncodesItsRow: the word of every command carries the OP of its row of the opcode map. -/

namespace Sys2Proof.Laws.EncodesItsRow

/-- The OP the opcode map (spec/30_encoding.md R62) gives a command. -/
def opOf : Instr → Byte
  | .crc8 _ _ _ => 0x01#8
  | .pktConstruct _ _ _ => 0x10#8
  | .pktValidate => 0x11#8
  | .pktGetType => 0x12#8
  | .pktGetFlags => 0x13#8
  | .pktGetPayloadSize => 0x14#8
  | .frmValidate => 0x20#8
  | .frmIsResend => 0x21#8
  | .frmGetIndex => 0x22#8
  | .frmBuild _ _ => 0x30#8
  | .frmBuildResend => 0x40#8
  | .frmReconstruct => 0x50#8

/-- The command's word has its row's OP in bits 7:0. -/
def Statement (i : Instr) : Prop := opField (encode i) = opOf i

theorem crc8 (start len : Byte) (sel : Buf) : Statement (.crc8 start len sel) := opField_packWord _ _ _ _
theorem pktConstruct (type flags size : Byte) : Statement (.pktConstruct type flags size) := opField_packWord _ _ _ _
theorem pktValidate : Statement .pktValidate := opField_packWord _ _ _ _
theorem pktGetType : Statement .pktGetType := opField_packWord _ _ _ _
theorem pktGetFlags : Statement .pktGetFlags := opField_packWord _ _ _ _
theorem pktGetPayloadSize : Statement .pktGetPayloadSize := opField_packWord _ _ _ _
theorem frmValidate : Statement .frmValidate := opField_packWord _ _ _ _
theorem frmIsResend : Statement .frmIsResend := opField_packWord _ _ _ _
theorem frmGetIndex : Statement .frmGetIndex := opField_packWord _ _ _ _
theorem frmBuild (flags index : Byte) : Statement (.frmBuild flags index) := opField_packWord _ _ _ _
theorem frmBuildResend : Statement .frmBuildResend := opField_packWord _ _ _ _
theorem frmReconstruct : Statement .frmReconstruct := opField_packWord _ _ _ _

end Sys2Proof.Laws.EncodesItsRow
end

