-- ==== Sys2Proof/Laws/Step.lean ====
section
/-! SUPPORT. What a step can do: the three kinds of turn, the host's access by the region it meets, and the register and
buffer accesses computed. -/

namespace Sys2Proof.Machine

variable {s t : State}

/-! ### Turns -/

theorem step_cons {x : Turn} {ts : List Turn} (h : s.turns = x :: ts) : step s = takeTurn x { s with turns := ts } := by
  simp [step, h]

/-- The engine is next in turn. -/
theorem step_engine (h : s.turns.head? = none ∨ s.turns.head? = some .engine) :
    step s = engineTurn { s with turns := s.turns.tail } := by
  cases ht : s.turns with
  | nil =>
    have : { s with turns := [] } = s := by cases s; simp_all
    simp [step, ht, this]
  | cons x ts => simp [ht] at h; subst h; simp [step, ht, takeTurn]

/-- A step is the engine's, the reset event, or one host access. -/
theorem step_cases (h : step s = .next t) :
    ((s.turns.head? = none ∨ s.turns.head? = some .engine) ∧ engineTurn { s with turns := s.turns.tail } = .next t)
      ∨ (s.turns.head? = some .reset ∧ t = State.resetEvent { s with turns := s.turns.tail })
      ∨ ∃ a, s.turns.head? = some (.host a) ∧ hostAccess a { s with turns := s.turns.tail } = .next t := by
  cases ht : s.turns with
  | nil => rw [step_engine (by simp [ht]), ht] at h; exact .inl ⟨.inl rfl, h⟩
  | cons x xs =>
    rw [step_cons ht] at h
    cases x with
    | engine => exact .inl ⟨.inr rfl, h⟩
    | reset => cases h; exact .inr (.inl ⟨rfl, rfl⟩)
    | host a => exact .inr (.inr ⟨a, rfl, h⟩)

/-- The engine's turn is no change, a command, or the completion of an unassigned opcode. -/
theorem engineTurn_cases (h : engineTurn s = .next t) :
    (s.status.busy = false ∧ t = s)
      ∨ (s.status.busy = true ∧ ((∃ i, exec i s = .next t) ∨ t = { s with status := Status.failure 5#4 })) := by
  unfold engineTurn at h
  split at h
  · rename_i hb
    refine .inr ⟨hb, ?_⟩
    unfold engineCommand at h
    split at h
    · exact .inl ⟨_, h⟩
    · cases h; exact .inr rfl
  · rename_i hb; cases h; exact .inl ⟨by simpa using hb, rfl⟩

/-! ### The window -/

theorem frameSize_le (p : Params) : 20 ≤ p.frameSize ∧ p.frameSize ≤ 21 := by
  rcases frameSize_cases p with h | h <;> omega

theorem windowOffset_base {p : Params} {off : Nat} (h : off < 0x200) : windowOffset p (p.base + off) = some off := by
  simp [windowOffset, h]

theorem windowOffset_zero {p : Params} : windowOffset p p.base = some 0 := by simp [windowOffset]

theorem windowOffset_some {p : Params} {addr off : Nat} (h : windowOffset p addr = some off) :
    addr = p.base + off ∧ off < 0x200 := by
  unfold windowOffset at h
  split at h
  · simp only [Option.some.injEq] at h; omega
  · cases h

theorem regionAt_cmd {p : Params} {off : Nat} : regionAt p off = .cmd ↔ off < 4 := by
  unfold regionAt
  constructor
  · intro h
    by_contra hc
    rw [if_neg hc] at h
    revert h
    split_ifs <;> simp
  · intro h; rw [if_pos h]

theorem regionAt_reserved {p : Params} {off : Nat}
    (h : 0x00C ≤ off ∧ off < 0x100 ∨ 0x140 ≤ off ∧ off < 0x180 ∨ 0x180 + p.frameSize ≤ off) :
    regionAt p off = .reserved := by
  have := frameSize_le p
  unfold regionAt maxTotal
  split_ifs <;> first | omega | rfl

/-- The two cells of the map that are not registers. -/
theorem regionAt_buffer {p : Params} {off : Nat}
    (h : 0x100 ≤ off ∧ off < 0x140 ∨ 0x180 ≤ off ∧ off < 0x180 + p.frameSize) :
    ∃ b i, regionAt p off = .buffer b i := by
  unfold regionAt maxTotal
  split_ifs <;> first | omega | exact ⟨_, _, rfl⟩

/-- The three registers. -/
theorem regionAt_register {p : Params} {off : Nat} (h : off < 0x00C) :
    regionAt p off = .cmd ∨ regionAt p off = .status ∨ regionAt p off = .config := by
  unfold regionAt
  split_ifs <;> simp

theorem bufferOffset_lt {b : Buf} {o : Nat} (ho : o < s.size b) : bufferOffset b o < 0x200 := by
  have := frameSize_le s.params
  cases b <;> simp only [size_pbuf, size_fbuf] at ho <;> simp only [bufferOffset] <;> omega

theorem regionAt_bufferOffset {b : Buf} {o : Nat} (ho : o < s.size b) :
    regionAt s.params (bufferOffset b o) = .buffer b o := by
  cases b with
  | pbuf =>
    rw [size_pbuf] at ho
    rw [show bufferOffset .pbuf o = 0x100 + o from rfl, regionAt, maxTotal, if_neg (by omega), if_neg (by omega),
      if_neg (by omega), if_pos (by omega), Nat.add_sub_cancel_left]
  | fbuf =>
    rw [size_fbuf] at ho
    rw [show bufferOffset .fbuf o = 0x180 + o from rfl, regionAt, maxTotal, if_neg (by omega), if_neg (by omega),
      if_neg (by omega), if_neg (by omega), if_pos (by omega), Nat.add_sub_cancel_left]

/-! ### One host access -/

theorem host_read_cmd : hostAccess (.read s.params.base 32) s = .next (s.respond 0#32) := by
  simp only [hostAccess, Access.addr, windowOffset_zero]; rfl

theorem host_read_status : hostAccess (.read (s.params.base + 4) 32) s = .next (s.respond s.status.word) := by
  simp only [hostAccess, Access.addr, windowOffset_base (show 4 < 0x200 by decide)]; rfl

theorem host_read_config : hostAccess (.read (s.params.base + 8) 32) s = .next (s.respond (configWord s.params)) := by
  simp only [hostAccess, Access.addr, windowOffset_base (show 8 < 0x200 by decide)]; rfl

theorem host_write_cmd {w : Word} : hostAccess (.write s.params.base 32 w) s =
    if s.status.busy then .fault (.commandWhileBusy s) else .next (s.issue w) := by
  simp only [hostAccess, Access.addr, windowOffset_zero]; rfl

theorem host_write_status {w : Word} : hostAccess (.write (s.params.base + 4) 32 w) s = .next s := by
  simp only [hostAccess, Access.addr, windowOffset_base (show 4 < 0x200 by decide)]; rfl

theorem host_write_config {w : Word} : hostAccess (.write (s.params.base + 8) 32 w) s = .next s := by
  simp only [hostAccess, Access.addr, windowOffset_base (show 8 < 0x200 by decide)]; rfl

theorem host_read_buffer {b : Buf} {o : Nat} (ho : o < s.size b) :
    hostAccess (.read (s.params.base + bufferOffset b o) 8) s =
      if s.readHazard b then .fault (.bufferHazard s)
      else orFault (s.memRead b o) fun v => .next (s.respond (v.setWidth 32)) := by
  simp [hostAccess, Access.addr, Access.width, windowOffset_base (bufferOffset_lt ho), State.admission, regionAt_bufferOffset ho,
    hostRead]

theorem host_write_buffer {b : Buf} {o : Nat} {d : Word} (ho : o < s.size b) :
    hostAccess (.write (s.params.base + bufferOffset b o) 8 d) s =
      if s.writeHazard b then .fault (.bufferHazard s) else .next (s.memWrite b o (d.setWidth 8)) := by
  simp [hostAccess, Access.addr, Access.width, windowOffset_base (bufferOffset_lt ho), State.admission, regionAt_bufferOffset ho,
    hostWrite]

/-- What a host access that goes on can do: answer a read, nothing, issue a command, or store one buffer byte. -/
theorem hostAccess_cases {a : Access} (h : hostAccess a s = .next t) :
    (∃ w, t = s.respond w) ∨ t = s
      ∨ (s.status.busy = false ∧ ∃ w, a = .write s.params.base 32 w ∧ t = s.issue w)
      ∨ ∃ b i v, t = s.memWrite b i v := by
  unfold hostAccess at h
  split at h
  · cases h
  rename_i off hoff
  obtain ⟨hoff, -⟩ := windowOffset_some hoff
  obtain ⟨r, hr, h⟩ := orFault_next h
  split at h
  · simp only [hostRead] at h
    split at h
    · cases h; exact .inl ⟨_, rfl⟩
    · cases h; exact .inl ⟨_, rfl⟩
    · cases h; exact .inl ⟨_, rfl⟩
    · split at h
      · cases h
      · obtain ⟨v, -, h⟩ := orFault_next h; cases h; exact .inl ⟨_, rfl⟩
    · cases h
  · rename_i addr width d _ _
    simp only [hostWrite] at h
    split at h
    · split at h
      · cases h
      · rename_i hb
        cases h
        refine .inr (.inr (.inl ⟨by simpa using hb, _, ?_, rfl⟩))
        unfold State.admission at hr
        split at hr
        · cases hr
        · split at hr <;> cases hr
        · rename_i hreg
          split at hr
          · rename_i hw
            simp only [Access.width] at hw
            simp only [Access.addr] at hoff
            have := regionAt_cmd.1 hreg
            rw [hw.1, show addr = s.params.base by omega]
          · cases hr
        · split at hr <;> cases hr
        · split at hr <;> cases hr
    · cases h; exact .inr (.inl rfl)
    · cases h; exact .inr (.inl rfl)
    · split at h
      · cases h
      · cases h; exact .inr (.inr (.inr ⟨_, _, _, rfl⟩))
    · cases h

/-! ### Turns do not matter to the bytes -/

@[simp] theorem byte_setTurns (s : State) (ts : List Turn) (b : Buf) (o : Nat) :
    ({ s with turns := ts } : State).byte b o = s.byte b o := byte_congr rfl (by cases b <;> rfl)

@[simp] theorem size_setTurns (s : State) (ts : List Turn) (b : Buf) : ({ s with turns := ts } : State).size b = s.size b := by
  cases b <;> rfl

end Sys2Proof.Machine
end

