-- ==== Sys2Proof/Tests/Slice0.lean ====
section
/-! SUPPORT. The model's own tests: well-formedness, decoding, at most two vectors of spec/95_test_vectors.md per command
(named by their label there), the host's side, and a witness for the hypotheses of every statement. -/

namespace Sys2Proof.Tests

open Sys2Proof.Machine

/-! ### Small states -/

/-- The default instance with the given footer (R6). -/
def inst (r : FooterRev) : Params := { Params.default with footerRev := r }

/-- The cells of a run of bytes. -/
def cells : Nat → List Byte → Memory
  | _, [] => []
  | o, v :: vs => (o, v) :: cells (o + 1) vs

/-- An idle block with bytes in its buffers from offset 0 on. -/
def block (r : FooterRev) (p f : List Byte) : State :=
  { State.resetWith (inst r) with pbuf := cells 0 p, fbuf := cells 0 f }

/-- The same with a command word issued and host or engine turns to come. -/
def busy (r : FooterRev) (p f : List Byte) (w : Word) (ts : List Turn) : State :=
  { (block r p f).issue w with turns := ts }

def word? : Result → Option Word
  | .next t => some t.status.word
  | _ => none

/-- The fault's name: `State.reset` stands in place of its faulted state. -/
def fault? : Result → Option Fault
  | .fault f => some (f.withState State.reset)
  | _ => none

/-- The faulted state. -/
def faulted? : Result → Option State
  | .fault f => some f.state
  | _ => none

def answer? : Result → Option Word
  | .next t => t.readData
  | _ => none

def after : Result → State
  | .next t => t
  | _ => State.reset

/-- The first `n` bytes of a buffer of the next state. -/
def first (b : Buf) (n : Nat) (r : Result) : Option (List Byte) := ((after r).readRange b 0 n).toOption

theorem fault_state {r : Result} (h : (faulted? r).isSome = true) : ∃ f, r = .fault f := by
  cases r <;> first | exact ⟨_, rfl⟩ | cases h

theorem after_next {r : Result} (h : (word? r).isSome = true) : r = .next (after r) := by
  cases r <;> first | rfl | cases h

theorem holds_of_read {s : State} {b : Buf} {o : Nat} {bs : List Byte}
    (h : (s.readRange b o bs.length).toOption = some bs) : s.Holds b o bs := by
  cases hr : s.readRange b o bs.length with
  | error f => rw [hr] at h; cases h
  | ok vs => rw [hr] at h; cases h; exact (readRange_ok_iff.1 hr).2

def pc1 : List Byte := [0xAC, 0x00, 0x00, 0x05, 0x84]
def pc2 : List Byte := [0xAC, 0x02, 0x01, 0x08, 0x11, 0x22, 0x33, 0x2F]
def pc3 : List Byte := [0xAC, 0x05, 0x00, 0x40] ++ (List.range 59).map (BitVec.ofNat 8) ++ [0x1B]
def pc7 : List Byte := [0xAC, 0x01, 0x00, 0x11, 0xA0, 0xA1, 0xA2, 0xA3, 0xA4, 0xA5, 0xA6, 0xA7, 0xA8, 0xA9, 0xAA, 0xAB, 0xEA]
/-- The bytes of FB17: byte k is k, and the length byte is 80. -/
def pc17 : List Byte := [0x00, 0x01, 0x02, 0x50] ++ (List.range 60).map fun k => BitVec.ofNat 8 (k + 4)
def fb2 : List Byte := [0xAE, 0x00, 0x02, 0xAC, 0x02, 0x01, 0x08, 0x11, 0x22, 0x33, 0x2F, 0x00, 0x00, 0x00, 0x00, 0x00, 0x00, 0x00, 0x00, 0xAF, 0x74]
def fb7 : List Byte := [0xAE, 0x03, 0x02, 0x2C, 0x2D, 0x2E, 0x2F, 0x30, 0x31, 0x32, 0x33, 0x34, 0x35, 0x36, 0x37, 0x38, 0x39, 0x3A, 0x1B, 0xAF, 0xFB]
def fb11 : List Byte := [0xAE, 0x01, 0x06, 0xEA, 0x00, 0x00, 0x00, 0x00, 0x00, 0x00, 0x00, 0x00, 0x00, 0x00, 0x00, 0x00, 0x00, 0x00, 0x00, 0xAF, 0xFB]
def fb12 : List Byte := [0xAE, 0x00, 0x00, 0xAC, 0x01, 0x00, 0x11, 0xA0, 0xA1, 0xA2, 0xA3, 0xA4, 0xA5, 0xA6, 0xA7, 0xA8, 0xA9, 0xAA, 0xAB, 0xAF, 0x27]
def fb13 : List Byte := [0xAE, 0x01, 0x02, 0xEA, 0x00, 0x00, 0x00, 0x00, 0x00, 0x00, 0x00, 0x00, 0x00, 0x00, 0x00, 0x00, 0x00, 0x00, 0x00, 0xAF, 0x6A]
def rs1 : List Byte := [0xAE, 0x00, 0x04, 0x02, 0x01, 0x03, 0x00, 0x00, 0x00, 0x00, 0x00, 0x00, 0x00, 0x00, 0x00, 0x00, 0x00, 0x00, 0x00, 0xAF, 0x6A]

/-! ### Well-formedness: one ill-formed term for each check -/

theorem test_wf_unassigned_op : wordOpAssigned 0x00000099#32 = false ∧ wellFormedWord 0x00000099#32 = false := by decide
theorem test_wf_ignored_fields : wordIgnoredZero 0x00000111#32 = false ∧ wordIgnoredZero 0x02000001#32 = false
    ∧ wordIgnoredZero 0x01000030#32 = false ∧ wellFormedWord 0xFFFFFF11#32 = false := by decide
theorem test_wf_good_words : wellFormedWord 0x01140001#32 = true ∧ wellFormedWord 0x3B000510#32 = true
    ∧ wellFormedWord 0x00010430#32 = true ∧ wellFormedWord 0x00000050#32 = true := by decide
theorem test_wf_crc_zero : Params.crcZero { Params.default with crcLo := defaultCrcHi.set 0 0x01#8 } = false := by decide
theorem test_wf_base : Params.baseAligned { Params.default with base := 0x100 } = false := by decide
theorem test_wf_default : Params.default.wellFormed = true := by decide

/-! ### Decoding: the word of every row, field by field from R61 and R62 -/

theorem test_decode_crc : decodeWord (0x01#8 ++ 0x14#8 ++ 0x00#8 ++ 0x01#8) = .ok (.crc8 0x00 0x14 .fbuf)
    ∧ decodeWord 0xFE053C01#32 = .ok (.crc8 60 5 .pbuf) := ⟨rfl, rfl⟩
theorem test_decode_packet : decodeWord (0x03#8 ++ 0x01#8 ++ 0x02#8 ++ 0x10#8) = .ok (.pktConstruct 0x02 0x01 0x03)
    ∧ decodeWord 0x00000011#32 = .ok .pktValidate ∧ decodeWord 0xFFFFFF11#32 = .ok .pktValidate
    ∧ decodeWord 0x00000012#32 = .ok .pktGetType ∧ decodeWord 0x00000013#32 = .ok .pktGetFlags
    ∧ decodeWord 0x00000014#32 = .ok .pktGetPayloadSize := ⟨rfl, rfl, rfl, rfl, rfl, rfl⟩
theorem test_decode_frame : decodeWord 0x00000020#32 = .ok .frmValidate ∧ decodeWord 0x00000021#32 = .ok .frmIsResend
    ∧ decodeWord 0x00000022#32 = .ok .frmGetIndex := ⟨rfl, rfl, rfl⟩
theorem test_decode_segmenter : decodeWord (0x00#8 ++ 0x01#8 ++ 0x04#8 ++ 0x30#8) = .ok (.frmBuild 0x04 0x01) := rfl
theorem test_decode_resend_and_reassembler : decodeWord 0x00000040#32 = .ok .frmBuildResend
    ∧ decodeWord 0x00000050#32 = .ok .frmReconstruct := ⟨rfl, rfl⟩
theorem test_decode_illegal : decodeWord 0x00000000#32 = .error (.unassignedOpcode 0x00)
    ∧ decodeWord 0x000000FF#32 = .error (.unassignedOpcode 0xFF) ∧ decodeWord 0x00000015#32 = .error (.unassignedOpcode 0x15) :=
  ⟨rfl, rfl, rfl⟩
theorem test_decode_table_word : decodeTableWord 32 0x01140001 = some (.crc8 0 20 .fbuf)
    ∧ decodeTableWord 8 0x11 = some .pktValidate ∧ decodeTableWord 32 0x99 = none := ⟨rfl, rfl, rfl⟩

/-! ### Commands: vectors of spec/95_test_vectors.md section 2 -/

theorem test_CR7_CR11 : crcOf (inst .tagged) [0x31, 0x32, 0x33, 0x34, 0x35, 0x36, 0x37, 0x38, 0x39] = 0xA1
    ∧ crcOf { inst .tagged with crcInit := 0xFF } [0xAC, 0x00, 0x00, 0x05] = 0x6F := by decide +kernel

theorem test_CC2 : word? (exec (.crc8 0 20 .fbuf) (block .tagged [] fb12)) = some 0x00002706#32 := by decide +kernel
theorem test_CC3_CC4 : word? (exec (.crc8 1 21 .fbuf) (block .tagged [] fb12)) = some 0x00000062#32
    ∧ word? (exec (.crc8 21 0 .fbuf) (block .tagged [] fb12)) = some 0x00000006#32 := by decide +kernel

theorem test_PC3 : first .pbuf 64 (exec (.pktConstruct 5 0 59) (block .tagged (List.take 63 pc3) [])) = some pc3
    ∧ first .pbuf 8 (exec (.pktConstruct 2 1 3) (block .plain (List.take 7 pc2) [])) = some pc2 := by decide +kernel
theorem test_PC4_PC6 : word? (exec (.pktConstruct 0 0 60) (block .tagged pc2 [])) = some 0x00000012#32
    ∧ fault? (exec (.pktConstruct 0 0 1) (block .tagged [0xAC, 0x00, 0x00, 0x05] [])) = some (.unwrittenRead State.reset) := by
  decide +kernel

theorem test_PV1_PV6_PV9 : word? (exec .pktValidate (block .tagged pc2 [])) = some 0x00000006#32
    ∧ word? (exec .pktValidate (block .tagged (pc2.set 5 0x23) [])) = some 0x00000032#32
    ∧ word? (exec .pktValidate (block .tagged [0xAC, 0x00, 0x00, 0x06, 0x00, 0xB8, 0x33, 0x49] [])) = some 0x00000006#32 := by
  decide +kernel
theorem test_PV5_PV10_PV11 : word? (exec .pktValidate (block .tagged (pc2.set 3 0x41) [])) = some 0x00000042#32
    ∧ word? (exec .pktValidate (block .tagged ((pc2.set 0 0xAD).set 3 0x04) [])) = some 0x00000022#32
    ∧ fault? (exec .pktValidate (block .tagged [] [])) = some (.unwrittenRead State.reset) := by decide +kernel

theorem test_PA1_PA8 : word? (exec .pktGetType (block .tagged pc2 [])) = some 0x00000206#32
    ∧ word? (exec .pktGetType (block .tagged [0x00, 0x07] [])) = some 0x00000706#32 := by decide
theorem test_PA2 : word? (exec .pktGetFlags (block .tagged pc2 [])) = some 0x00000106#32 := by decide
theorem test_PA3_PA6_PA7 : word? (exec .pktGetPayloadSize (block .tagged pc2 [])) = some 0x00000306#32
    ∧ word? (exec .pktGetPayloadSize (block .tagged (pc2.set 3 0x04) [])) = some 0x0000FF06#32
    ∧ word? (exec .pktGetPayloadSize (block .tagged (pc2.set 3 0x00) [])) = some 0x0000FB06#32 := by decide

theorem test_FB7_FB11 : first .fbuf 21 (exec (.frmBuild 0 3) (block .tagged pc3 [])) = some fb7
    ∧ first .fbuf 21 (exec (.frmBuild 4 1) (block .tagged pc7 [])) = some fb11
    ∧ first .fbuf 20 (exec (.frmBuild 4 1) (block .plain pc7 []))
      = some ([0xAE, 0x01, 0x06, 0xEA] ++ List.replicate 15 0x00 ++ [0xF4]) := by decide +kernel
theorem test_FB15_FB17_FB18_FB19 : word? (exec (.frmBuild 0 0) (block .tagged (pc2.set 3 0x00) [])) = some 0x00000012#32
    ∧ (first .fbuf 21 (exec (.frmBuild 0 3) (block .tagged pc17 [])) = some
        [0xAE, 0x03, 0x00, 0x30, 0x31, 0x32, 0x33, 0x34, 0x35, 0x36, 0x37, 0x38, 0x39, 0x3A, 0x3B, 0x3C, 0x3D, 0x3E, 0x3F, 0xAF, 0x3D]
      ∧ word? (exec (.frmBuild 0 3) (block .tagged pc17 [])) = some 0x0000000E#32)
    ∧ fault? (exec (.frmBuild 0 4) (block .tagged pc17 [])) = some (.frameSourceOverrun State.reset)
    ∧ word? (exec (.frmBuild 0 5) (block .tagged pc17 [])) = some 0x00000012#32 := by decide +kernel

theorem test_FV1_FV4_FV5 : word? (exec .frmValidate (block .tagged [] fb2)) = some 0x00000006#32
    ∧ word? (exec .frmValidate (block .tagged [] (fb2.set 1 0x04))) = some 0x00000012#32
    ∧ word? (exec .frmValidate (block .tagged [] (fb2.set 19 0xAE))) = some 0x00000022#32
    ∧ word? (exec .frmValidate (block .plain [] ((fb2.take 19) ++ [0xAE]))) = some 0x00000032#32 := by decide +kernel
theorem test_FV3_FV7_FV8 : word? (exec .frmValidate (block .tagged [] (fb2.set 0 0xAC))) = some 0x00000022#32
    ∧ word? (exec .frmValidate (block .tagged [] (fb2.set 20 0x75))) = some 0x00000032#32
    ∧ word? (exec .frmValidate (block .tagged [] fb11)) = some 0x00000006#32 := by decide +kernel

theorem test_IR1_IR2_IR4 : word? (exec .frmIsResend (block .tagged [] rs1)) = some 0x00000106#32
    ∧ word? (exec .frmIsResend (block .tagged [] fb2)) = some 0x00000006#32
    ∧ word? (exec .frmIsResend (block .tagged [] [0xAE, 0x00, 0xFB])) = some 0x00000006#32 := by decide
theorem test_GI1_GI2 : word? (exec .frmGetIndex (block .tagged [] fb7)) = some 0x00000306#32
    ∧ word? (exec .frmGetIndex (block .tagged [] [0xAE, 0xC8])) = some 0x0000C806#32 := by decide

theorem test_RS1 : first .fbuf 21 (exec .frmBuildResend (block .tagged [] (rs1.take 19))) = some rs1
    ∧ first .fbuf 20 (exec .frmBuildResend (block .plain [] (rs1.take 19))) = some (rs1.take 19 ++ [0x48]) := by
  decide +kernel
theorem test_RS3 : fault? (exec .frmBuildResend (block .tagged [] (rs1.take 10))) = some (.unwrittenRead State.reset) := by decide +kernel

theorem test_RC2 : ((after (exec .frmReconstruct (block .tagged [] fb13))).readRange .pbuf 16 16).toOption
      = some (0xEA :: List.replicate 15 0x00)
    ∧ word? (exec .frmReconstruct (block .tagged [] fb13)) = some 0x00000006#32
    ∧ (after (exec .frmReconstruct (block .tagged [] fb13))).byte .pbuf 15 = none := by decide +kernel
theorem test_RC3_RC4 : ((after (exec .frmReconstruct (block .tagged []
        [0xAE, 0x03, 0x02, 0x55, 0x55, 0x55, 0x55, 0x55, 0x55, 0x55, 0x55, 0x55, 0x55, 0x55, 0x55, 0x55, 0x55, 0x55, 0x55]))).readRange .pbuf 48 16).toOption
      = some (List.replicate 16 0x55)
    ∧ word? (exec .frmReconstruct (block .tagged []
        [0xAE, 0x04, 0x00, 0x55, 0x55, 0x55, 0x55, 0x55, 0x55, 0x55, 0x55, 0x55, 0x55, 0x55, 0x55, 0x55, 0x55, 0x55, 0x55])) = some 0x0000000E#32
    ∧ (after (exec .frmReconstruct (block .tagged []
        [0xAE, 0x04, 0x00, 0x55, 0x55, 0x55, 0x55, 0x55, 0x55, 0x55, 0x55, 0x55, 0x55, 0x55, 0x55, 0x55, 0x55, 0x55, 0x55]))).pbuf = [] := by decide +kernel

/-! ### The host's side and the engine's step: vectors DX1 to DX16 -/

theorem test_DX1 : word? (step (busy .tagged [] [] 0x00000000#32 [])) = some 0x00000052#32
    ∧ word? (step (busy .tagged [] [] 0x000000FF#32 [.engine])) = some 0x00000052#32 := by decide
theorem test_DX3 : word? (step (busy .tagged pc2 [] 0xFFFFFF11#32 [])) = some 0x00000006#32 := by decide +kernel
theorem test_DX4_DX5_DX6_DX7 :
    answer? (step { State.reset with turns := [lwConfig Params.default] }) = some 0x10401501#32
      ∧ answer? (step { State.resetWith (inst .plain) with turns := [lwConfig (inst .plain)] }) = some 0x10401400#32
      ∧ answer? (step { State.reset with turns := [.host (.read 0 32)] }) = some 0x00000000#32
      ∧ answer? (step { State.reset with turns := [lwStatus Params.default] }) = some 0x00000000#32
      ∧ answer? (step (busy .tagged [] [] 0x11#32 [lwStatus Params.default])) = some 0x00000001#32 := by decide
theorem test_DX8 : fault? (step (busy .tagged [] [] 0x11#32 [swCmd Params.default 0x11#32])) = some (.commandWhileBusy State.reset) := by
  decide
theorem test_DX9_DX10_DX11_DX12 :
    fault? (step (busy .tagged pc2 fb2 0x30#32 [sb Params.default .pbuf 4 0xAA])) = some (.bufferHazard State.reset)
      ∧ answer? (step (busy .tagged pc2 fb2 0x30#32 [lb Params.default .pbuf 4])) = some 0x11#32
      ∧ fault? (step (busy .tagged pc2 fb2 0x30#32 [lb Params.default .fbuf 0])) = some (.bufferHazard State.reset)
      ∧ (after (step (busy .tagged pc2 [] 0x11#32 [sb Params.default .fbuf 0 0xAE]))).byte .fbuf 0 = some 0xAE := by decide
theorem test_DX13_DX14_DX15_DX16 :
    fault? (step { State.reset with turns := [.host (.read 0x004 8)] }) = some (.badAccess State.reset)
      ∧ fault? (step { State.reset with turns := [.host (.read 0x100 32)] }) = some (.badAccess State.reset)
      ∧ fault? (step { State.reset with turns := [.host (.read 0x020 32)] }) = some (.reservedAccess State.reset)
      ∧ fault? (step { State.reset with turns := [.host (.write 0x1F0 8 0x55#32)] }) = some (.reservedAccess State.reset)
      ∧ fault? (step { State.reset with turns := [lb Params.default .pbuf 0] }) = some (.unwrittenRead State.reset) := by decide
theorem test_fetch : word? (step (State.reset.withFetchWord 32 0x3C000010)) = some 0x00000012#32
    ∧ fault? (step (State.reset.withFetchWord 32 0x00000011)) = some (.unwrittenRead State.reset) := by decide
/-- PC6, RS3 and a copy that stops: BUSY stays 1, and the writes before the fault stand. -/
theorem test_faulted_state :
    (faulted? (step (busy .tagged [0x00, 0x00, 0x00, 0x00] [] 0x01000010#32 []))).map
        (fun u => (u.status.word, u.pbuf)) = some (0x00000001#32, cells 0 [0xAC, 0x00, 0x00, 0x06])
      ∧ (faulted? (step (busy .tagged [] (fb13.take 5) 0x50#32 []))).map (fun u => (u.status.word, u.pbuf))
        = some (0x00000001#32, cells 16 [0xEA, 0x00])
      ∧ (faulted? (step (busy .tagged pc2 fb2 0x30#32 [sb Params.default .pbuf 4 0xAA])))
        = some (busy .tagged pc2 fb2 0x30#32 []) := by decide +kernel
theorem test_reset_turn : word? (step (busy .tagged pc2 fb2 0x11#32 [.reset])) = some 0x00000000#32
    ∧ (after (step (busy .tagged pc2 fb2 0x11#32 [.reset]))).pbuf = [] := by decide

/-! ### Witnesses: a state and operands that meet the hypotheses of each statement -/

theorem test_witness_EncodeOfDecodeKeepsTheUsedBits : decodeWord 0xFF140001#32 = .ok (.crc8 0 20 .fbuf)
    ∧ decodeWord 0xFF010430#32 = .ok (.frmBuild 4 1) := ⟨rfl, rfl⟩
theorem test_witness_IgnoredBitsDoNotChangeTheCommand :
    opcodeRowOf 0x00140001#32 = some ⟨0x01#8, 0x01FFFFFF#32⟩
      ∧ (0xFE140001#32 &&& 0x01FFFFFF#32) = (0x00140001#32 &&& 0x01FFFFFF#32)
      ∧ opcodeRowOf 0x00000011#32 = some ⟨0x11#8, 0x000000FF#32⟩
      ∧ (0xFFFFFF11#32 &&& 0x000000FF#32) = (0x00000011#32 &&& 0x000000FF#32) := by decide
theorem test_witness_UnassignedOpcodesAreIllegal :
    wordOpAssigned 0x00000000#32 = false ∧ wordOpAssigned 0x12345699#32 = false
      ∧ (busy .tagged [] [] 0x12345699#32 []).status.busy = true
      ∧ wordOpAssigned (busy .tagged [] [] 0x12345699#32 []).latch = false
      ∧ (busy .tagged [] [] 0x12345699#32 [.engine]).turns.head? = some .engine := by decide
theorem test_witness_StepRunsTheDecodedCommand :
    let s := busy .tagged pc2 [] 0x12#32 []
    let u := busy .tagged pc2 [] 0x12#32 [.engine, .reset]
    s.status.busy = true ∧ s.turns.head? = none ∧ decodeWord s.latch = .ok .pktGetType
      ∧ u.status.busy = true ∧ u.turns.head? = some .engine ∧ decodeWord u.latch = .ok .pktGetType
      ∧ wordOpAssigned (busy .tagged pc2 [] 0x99#32 []).latch = false :=
  ⟨rfl, rfl, rfl, rfl, rfl, rfl, rfl⟩
theorem test_witness_IdleEngineChangesNothing :
    State.reset.status.busy = false ∧ State.reset.turns.head? = none
      ∧ ({ State.reset with turns := [.engine] } : State).turns.head? = some .engine := ⟨rfl, rfl, rfl⟩
theorem test_witness_CompletionFrame : ∃ t, exec .pktGetType (block .tagged pc2 []) = .next t := ⟨_, rfl⟩
theorem test_witness_CommandsWriteOnlyTheirWriteSet :
    (∃ t, exec .frmGetIndex (block .tagged pc2 fb2) = .next t) ∧ (∀ a b c, Instr.frmGetIndex ≠ .pktConstruct a b c)
      ∧ Instr.frmGetIndex ≠ .frmReconstruct ∧ (∀ a b, Instr.frmGetIndex ≠ .frmBuild a b)
      ∧ Instr.frmGetIndex ≠ .frmBuildResend := by
  exact ⟨⟨_, rfl⟩, fun _ _ _ => by simp, by simp, fun _ _ => by simp, by simp⟩
theorem test_witness_FailuresChangeOnlyStatus :
    (∃ t, exec (.pktConstruct 0 0 60) State.reset = .next t ∧ t.status.ok = false)
      ∧ ∃ t, exec .pktGetType (block .tagged pc2 []) = .next t ∧ t.status.ok = true := ⟨⟨_, rfl, rfl⟩, _, rfl, rfl⟩
theorem test_witness_CommandsThatCannotFail :
    (∃ t, exec .pktGetFlags (block .tagged pc2 fb2) = .next t)
      ∧ ∃ t, exec .frmReconstruct (block .tagged pc2 fb2) = .next t := ⟨⟨_, rfl⟩, _, rfl⟩
theorem test_witness_EngineFaultsAreTheStatedOnes :
    exec .pktGetType State.reset = .fault (.unwrittenRead State.reset)
      ∧ exec (.frmBuild 0 4) (block .tagged pc17 []) = .fault (.frameSourceOverrun (block .tagged pc17 [])) := ⟨rfl, rfl⟩
/-- The engine's fault, the fault of a step in its turn, a host access that faults, and a reset turn. -/
theorem test_witness_FaultedStateIsTheOneBeforeFinishOrAccess :
    (∃ f, engineTurn (busy .tagged [] [] 0x12#32 []) = .fault f)
      ∧ (∃ f, step (busy .tagged [] [] 0x12#32 [.engine]) = .fault f)
      ∧ (busy .tagged [] [] 0x12#32 [.engine]).turns.head? = some .engine
      ∧ (∃ f, step (busy .tagged [] [] 0x12#32 [.host (.read 0x020 32)]) = .fault f)
      ∧ (busy .tagged [] [] 0x12#32 [.host (.read 0x020 32)]).turns.head? = some (.host (.read 0x020 32))
      ∧ (busy .tagged [] [] 0x12#32 [.reset]).turns.head? = some .reset :=
  ⟨⟨_, rfl⟩, ⟨_, rfl⟩, rfl, ⟨_, rfl⟩, rfl, rfl⟩
/-- Payload sizes 1 and 59, a resend payload without its last byte, and copies that stop before the first and the last
payload byte. -/
theorem test_witness_FaultedStateHoldsTheWritesBefore :
    ((1#8).toNat ≤ 59 ∧ State.reset.SomeUnwritten .pbuf 4 (1#8).toNat)
      ∧ ((59#8).toNat ≤ 59 ∧ (block .tagged (pc3.take 62) []).SomeUnwritten .pbuf 4 (59#8).toNat)
      ∧ (block .tagged [] (rs1.take 18)).SomeUnwritten .fbuf 3 16
      ∧ ((block .tagged [] (fb7.take 3)).byte .fbuf 1 = some 0x03 ∧ (block .tagged [] (fb7.take 3)).byte .fbuf 2 = some 0x02
        ∧ (3#8).toNat < 4 ∧ (block .tagged [] (fb7.take 3)).Holds .fbuf 3 []
        ∧ (block .tagged [] (fb7.take 3)).byte .fbuf (3 + 0) = none)
      ∧ ((block .tagged [] (fb7.take 18)).byte .fbuf 1 = some 0x03
        ∧ (block .tagged [] (fb7.take 18)).byte .fbuf 2 = some 0x02 ∧ ((fb7.take 18).drop 3).length < 16
        ∧ (block .tagged [] (fb7.take 18)).Holds .fbuf 3 ((fb7.take 18).drop 3)
        ∧ (block .tagged [] (fb7.take 18)).byte .fbuf (3 + ((fb7.take 18).drop 3).length) = none) :=
  ⟨⟨by decide, by decide, 0, by decide, rfl⟩, ⟨by decide, by decide, 58, by decide, by decide +kernel⟩,
    ⟨by decide, 15, by decide, rfl⟩, ⟨rfl, rfl, by decide, holds_of_read rfl, rfl⟩, rfl, rfl, by decide,
    holds_of_read rfl, rfl⟩
theorem test_witness_ResultDependsOnlyOnTheReadSet :
    (block .tagged pc2 []).params = (block .tagged pc2 fb2).params
      ∧ (∀ b ∈ readSet (.pktConstruct 2 1 3), ∀ o, (block .tagged pc2 []).byte b o = (block .tagged pc2 fb2).byte b o)
      ∧ (∃ t, exec (.pktConstruct 2 1 3) (block .tagged pc2 []) = .next t)
      ∧ ∃ f, exec .pktGetType (block .tagged [] []) = .fault f := by
  refine ⟨rfl, fun b hb o => ?_, ⟨_, rfl⟩, _, rfl⟩
  obtain rfl : b = .pbuf := by simpa [readSet] using hb
  rfl
theorem test_witness_StepKeepsTheInvariant :
    (busy .tagged pc2 fb2 0x30#32 []).Inv ∧ ∃ t, step (busy .tagged pc2 fb2 0x30#32 []) = .next t :=
  ⟨by decide, _, after_next (by decide +kernel)⟩
/-- A completed block whose next turn issues a command, and one that is reset. -/
theorem test_witness_DoneStaysUntilCmdWriteOrReset :
    let s := { after (exec .pktGetType (block .tagged pc2 [])) with turns := [swCmd Params.default 0x12#32] }
    let u := { after (exec .pktGetType (block .tagged pc2 [])) with turns := [.reset] }
    (s.Inv ∧ s.status.done = true ∧ ∃ t, step s = .next t ∧ t.status ≠ s.status)
      ∧ u.Inv ∧ u.status.done = true ∧ ∃ t, step u = .next t ∧ t.status ≠ u.status :=
  ⟨⟨by decide, rfl, _, rfl, by decide⟩, by decide, rfl, _, rfl, by decide⟩
theorem test_witness_OnlyACmdWriteStartsACommand :
    let s := { State.reset with turns := [swCmd Params.default 0x12#32] }
    s.status.busy = false ∧ ∃ t, step s = .next t ∧ t.status.busy = true := ⟨rfl, _, rfl, rfl⟩
theorem test_witness_OnlyResetUnwritesAByte :
    let s := { block .tagged pc2 [] with turns := [.reset] }
    ∃ t, step s = .next t ∧ (s.byte .pbuf 0).isSome = true ∧ t.byte .pbuf 0 = none := ⟨_, rfl, rfl, rfl⟩
theorem test_witness_CommandRunsAfterAnyPolls (i : Instr) (k : Nat) :
    let s := { State.reset with
      turns := Turn.host (.write State.reset.params.base 32 (encode i))
        :: (List.replicate k (Turn.host (.read (State.reset.params.base + 4) 32)) ++ [Turn.engine]) }
    s.status.busy = false ∧ s.turns = .host (.write s.params.base 32 (encode i))
      :: (List.replicate k (.host (.read (s.params.base + 4) 32)) ++ [.engine]) := ⟨rfl, rfl⟩
theorem test_witness_ResetEventLeavesTheStatedValues : (busy .tagged pc2 fb2 0x30#32 [.reset]).turns = .reset :: [] := rfl
theorem test_witness_CmdRegister :
    ({ State.reset with turns := [.host (.write 0 32 0x11#32)] } : State).status.busy = false
      ∧ (busy .tagged [] [] 0x11#32 [.host (.write 0 32 0x11#32)]).status.busy = true
      ∧ (busy .tagged [] [] 0x11#32 [.host (.write 0 32 0x11#32)]).turns
        = .host (.write State.reset.params.base 32 0x11#32) :: []
      ∧ ({ State.reset with turns := [.host (.read 0 32)] } : State).turns
        = .host (.read State.reset.params.base 32) :: [] := ⟨rfl, rfl, rfl, rfl⟩
theorem test_witness_StatusRegister :
    (busy .tagged [] [] 0x11#32 [lwStatus (inst .tagged)]).turns = .host (.read ((inst .tagged).base + 4) 32) :: []
      ∧ (busy .tagged [] [] 0x11#32 []).Inv ∧ (busy .tagged [] [] 0x11#32 []).status.busy = true
      ∧ (busy .tagged [] [] 0x11#32 [.host (.write 4 32 0xFF#32)]).turns
        = .host (.write ((inst .tagged).base + 4) 32 0xFF#32) :: [] := ⟨rfl, by decide, rfl, rfl⟩
theorem test_witness_ConfigRegister :
    ({ State.reset with turns := [lwConfig Params.default] } : State).turns
        = .host (.read (Params.default.base + 8) 32) :: []
      ∧ ({ State.reset with turns := [.host (.write 8 32 0xFF#32)] } : State).turns
        = .host (.write (Params.default.base + 8) 32 0xFF#32) :: []
      ∧ ∃ t, step { State.reset with turns := [.reset] } = .next t := ⟨rfl, rfl, _, rfl⟩
/-- The first and last reserved offset of each range, TAGGED and PLAIN. -/
theorem test_witness_ReservedOffsetsFault :
    (∀ off ∈ [0x00C, 0x0FF, 0x140, 0x17F, 0x180 + 21, 0x1FF], 0x00C ≤ off ∧ off < 0x100 ∨ 0x140 ≤ off ∧ off < 0x180
        ∨ 0x180 + (if (inst .tagged).footerRev = .tagged then 21 else 20) ≤ off ∧ off < 0x200)
      ∧ (∀ off ∈ [0x180 + 20], 0x00C ≤ off ∧ off < 0x100 ∨ 0x140 ≤ off ∧ off < 0x180
        ∨ 0x180 + (if (inst .plain).footerRev = .tagged then 21 else 20) ≤ off ∧ off < 0x200)
      ∧ (Access.read 0x1FF 8).addr = (inst .tagged).base + 0x1FF
      ∧ ({ State.reset with turns := [.host (.read 0x1FF 8)] } : State).turns = .host (.read 0x1FF 8) :: [] := by decide
/-- Registers at their first and last offsets, the buffers at theirs. -/
theorem test_witness_WrongWidthOrAlignmentFaults :
    (∀ x ∈ [(0x000, 8), (0x001, 32), (0x00B, 8), (0x008, 16)],
        x.1 + (x.2 + 7) / 8 ≤ 0x00C ∧ x.1 < 0x00C ∧ ¬(x.2 = 32 ∧ x.1 % 4 = 0))
      ∧ (∀ x ∈ [(0x100, 32), (0x13E, 16), (0x180, 32), (0x180 + 20, 0)],
        (0x100 ≤ x.1 ∧ x.1 < 0x140 ∧ x.1 + (x.2 + 7) / 8 ≤ 0x140
          ∨ 0x180 ≤ x.1 ∧ x.1 < 0x180 + (if (inst .tagged).footerRev = .tagged then 21 else 20)
            ∧ x.1 + (x.2 + 7) / 8 ≤ 0x180 + (if (inst .tagged).footerRev = .tagged then 21 else 20)) ∧ x.2 ≠ 8)
      ∧ (Access.write 0x13E 16 0#32).addr = (inst .tagged).base + 0x13E
      ∧ ({ State.reset with turns := [.host (.write 0x13E 16 0#32)] } : State).turns = .host (.write 0x13E 16 0#32) :: [] := by
  decide
/-- A half word that begins in the last byte of PBUF, and a double word that begins at CONFIG. -/
theorem test_witness_AccessesAreClassifiedByTheirFirstByte :
    (0x100 ≤ 0x13F ∧ 0x13F < 0x140 ∧ (Access.read 0x13F 16).width ≠ 8)
      ∧ (0x008 < 0x00C ∧ ¬((Access.read 0x008 64).width = 32 ∧ 0x008 % 4 = 0))
      ∧ (Access.read 0x13F 16).addr = (inst .tagged).base + 0x13F
      ∧ ({ State.reset with turns := [.host (.read 0x13F 16)] } : State).turns = .host (.read 0x13F 16) :: [] := by decide
theorem test_witness_OutsideTheWindowIsRefused :
    (Access.read 0x1FF 8).addr < 0x200 ∧ 0x200 + 0x200 ≤ (Access.read 0x400 8).addr
      ∧ step { State.resetWith { Params.default with base := 0x200 } with turns := [.host (.read 0x1FF 8)] }
        = .refused .outsideWindow
      ∧ step { State.resetWith { Params.default with base := 0x200 } with turns := [.host (.read 0x400 8)] }
        = .refused .outsideWindow := ⟨by decide, by decide, rfl, rfl⟩
/-- FRM_BUILD running: PBUF is read, FBUF written; PKT_VALIDATE leaves FBUF to the host; an unassigned OP leaves both. -/
theorem test_witness_BufferHazards :
    (busy .tagged pc2 fb2 0x30#32 [.host (.write 0x13F 8 0x55#32)]).status.busy = true
      ∧ 63 < (block .tagged pc2 fb2).size .pbuf ∧ 20 < (block .tagged pc2 fb2).size .fbuf
      ∧ decodeWord 0x30#32 = .ok (.frmBuild 0 0) ∧ decodeWord 0x11#32 = .ok .pktValidate
      ∧ (busy .tagged pc2 fb2 0x30#32 [.host (.write 0x13F 8 0x55#32)]).turns
        = .host (.write ((inst .tagged).base + bufferOffset .pbuf 63) 8 0x55#32) :: []
      ∧ Buf.pbuf ∈ readSet (.frmBuild 0 0) ∧ Buf.fbuf ∈ writeSet (.frmBuild 0 0)
      ∧ ¬(Buf.fbuf ∈ readSet .pktValidate ∨ Buf.fbuf ∈ writeSet .pktValidate)
      ∧ (busy .tagged pc2 fb2 0x30#32 [.host (.read 0x194 8)]).turns
        = .host (.read ((inst .tagged).base + bufferOffset .fbuf 20) 8) :: []
      ∧ (block .tagged pc2 fb2).byte .fbuf 20 = some 0x74
      ∧ Buf.pbuf ∉ writeSet (.frmBuild 0 0) ∧ (block .tagged pc2 fb2).byte .pbuf 0 = some 0xAC
      ∧ wordOpAssigned 0x99#32 = false := by
  exact ⟨rfl, by decide, by decide, rfl, rfl, rfl, by decide, by decide, by decide, rfl, rfl, by decide, rfl, rfl⟩
theorem test_witness_HazardIsReportedBeforeUnwritten :
    let s := busy .tagged pc2 [] 0x30#32 [.host (.read 0x180 8)]
    s.status.busy = true ∧ 0 < s.size .fbuf ∧ decodeWord s.latch = .ok (.frmBuild 0 0)
      ∧ Buf.fbuf ∈ writeSet (.frmBuild 0 0) ∧ s.byte .fbuf 0 = none
      ∧ s.turns = .host (.read (s.params.base + bufferOffset .fbuf 0) 8) :: [] := by
  exact ⟨rfl, by decide, rfl, by decide, rfl, rfl⟩
/-- An idle block, and one whose running PKT_VALIDATE leaves FBUF to the host. -/
theorem test_witness_HostBufferWrite :
    let s := { State.reset with turns := [.host (.write 0x194 8 0x1FF#32), .host (.read 0x194 8)] }
    let u := busy .tagged pc2 [] 0x11#32 [.host (.write 0x194 8 0x1FF#32)]
    (s.writeHazard .fbuf = false ∧ 20 < s.size .fbuf
        ∧ s.turns = .host (.write (s.params.base + bufferOffset .fbuf 20) 8 0x1FF#32)
          :: .host (.read (s.params.base + bufferOffset .fbuf 20) 8) :: [])
      ∧ u.status.busy = true ∧ u.writeHazard .fbuf = false ∧ 20 < u.size .fbuf
      ∧ u.turns = .host (.write (u.params.base + bufferOffset .fbuf 20) 8 0x1FF#32) :: [] :=
  ⟨⟨rfl, by decide, rfl⟩, rfl, rfl, by decide, rfl⟩
/-- An idle block, and one whose running FRM_BUILD leaves PBUF to be read: a written byte and an unwritten one. -/
theorem test_witness_HostBufferRead :
    let s := { block .tagged pc3 [] with turns := [.host (.read 0x13F 8)] }
    let u := busy .tagged pc2 [] 0x30#32 [.host (.read 0x13F 8)]
    (s.readHazard .pbuf = false ∧ 63 < s.size .pbuf
        ∧ s.turns = .host (.read (s.params.base + bufferOffset .pbuf 63) 8) :: [] ∧ s.byte .pbuf 63 = some 0x1B)
      ∧ u.status.busy = true ∧ u.readHazard .pbuf = false ∧ 63 < u.size .pbuf
      ∧ u.turns = .host (.read (u.params.base + bufferOffset .pbuf 63) 8) :: [] ∧ u.byte .pbuf 63 = none :=
  ⟨⟨rfl, by decide, rfl, by decide +kernel⟩, rfl, rfl, by decide, rfl, by decide⟩

theorem test_witness_CrcOfAUnitWithItsCrcIsZero :
    let s := block .tagged pc1 []
    s.params.crcZero = true ∧ s.crc8 .pbuf 0 (List.length [0xAC#8, 0x00#8, 0x00#8, 0x05#8]) = .ok 0x84
      ∧ s.byte .pbuf (0 + List.length [0xAC#8, 0x00#8, 0x00#8, 0x05#8]) = some 0x84
      ∧ s.Holds .pbuf 0 [0xAC, 0x00, 0x00, 0x05] := ⟨rfl, rfl, rfl, holds_of_read rfl⟩

/-- An instance whose `T` is the identity: its CRC is the exclusive or of the bytes. -/
def xorInst : Params where
  footerRev := .tagged
  crcLo := #v[0x00, 0x01, 0x02, 0x03, 0x04, 0x05, 0x06, 0x07, 0x08, 0x09, 0x0A, 0x0B, 0x0C, 0x0D, 0x0E, 0x0F]
  crcHi := #v[0x00, 0x10, 0x20, 0x30, 0x40, 0x50, 0x60, 0x70, 0x80, 0x90, 0xA0, 0xB0, 0xC0, 0xD0, 0xE0, 0xF0]
  crcInit := 0x00
  base := 0

theorem xorInst_injective : CrcInjective xorInst := by
  have h : ∀ x : Byte, crcT xorInst x = x := by decide +kernel
  intro x y hxy
  rwa [h, h] at hxy

def xorPacket : List Byte := [0xAC, 0x00, 0x00, 0x05, 0xA9]
def xorFrame : List Byte := [0xAE, 0x00, 0x02] ++ List.replicate 16 0x00 ++ [0xAF, 0x03]

theorem test_witness_ChangingOneByteChangesTheCrc : CrcInjective xorInst ∧ (0x00#8 : Byte) ≠ 0x01#8 :=
  ⟨xorInst_injective, by decide⟩
/-- Ranges that end one past the buffer and at its end, an empty range at the end, and an unwritten last byte. -/
theorem test_witness_Crc8Command :
    let s := block .tagged [] fb12
    ((0x01#8).getLsbD 0 = decide (Buf.fbuf = .fbuf) ∧ (0xFE#8).getLsbD 0 = decide (Buf.pbuf = .fbuf))
      ∧ (60#8).toNat + (5#8).toNat > (if Buf.pbuf = .pbuf then 64 else s.params.frameSize)
      ∧ (1#8).toNat + (21#8).toNat > (if Buf.fbuf = .pbuf then 64 else s.params.frameSize)
      ∧ ((0#8).toNat + (21#8).toNat ≤ (if Buf.fbuf = .pbuf then 64 else s.params.frameSize) ∧ fb12.length = (21#8).toNat
        ∧ s.Holds .fbuf (0#8).toNat fb12)
      ∧ ((21#8).toNat + (0#8).toNat ≤ (if Buf.fbuf = .pbuf then 64 else s.params.frameSize) ∧ s.Holds .fbuf (21#8).toNat [])
      ∧ s.SomeUnwritten .pbuf (63#8).toNat (1#8).toNat :=
  ⟨by decide, by decide, by decide, ⟨by decide, rfl, holds_of_read rfl⟩, ⟨by decide, holds_of_read rfl⟩, by decide, 0, by decide, rfl⟩
/-- Payload sizes 60, 59 and 0, and an unwritten payload byte at size 1 and at size 59. -/
theorem test_witness_PktConstruct :
    59 < (60#8).toNat ∧ ((59#8).toNat ≤ 59 ∧ ((pc3.drop 4).take 59).length = (59#8).toNat
        ∧ (block .tagged pc3 []).Holds .pbuf 4 ((pc3.drop 4).take 59))
      ∧ ((0#8).toNat ≤ 59 ∧ ([] : List Byte).length = (0#8).toNat ∧ State.reset.Holds .pbuf 4 [])
      ∧ ((1#8).toNat ≤ 59 ∧ State.reset.SomeUnwritten .pbuf 4 (1#8).toNat)
      ∧ (block .tagged (pc3.take 62) []).SomeUnwritten .pbuf 4 (59#8).toNat :=
  ⟨by decide, ⟨by decide, rfl, holds_of_read (by decide +kernel)⟩, ⟨by decide, rfl, holds_of_read rfl⟩,
    ⟨by decide, by decide, 0, by decide, rfl⟩, by decide, 58, by decide, by decide +kernel⟩
theorem test_witness_ConstructThenValidateSucceeds :
    (block .tagged pc3 []).params.crcZero = true ∧ (59#8).toNat ≤ 59
      ∧ ((pc3.drop 4).take 59).length = (59#8).toNat ∧ (block .tagged pc3 []).Holds .pbuf 4 ((pc3.drop 4).take 59)
      ∧ 60 ≤ (60#8).toNat :=
  ⟨rfl, by decide, rfl, holds_of_read (by decide +kernel), by decide⟩
/-- Lengths 4, 65, 5 and 64, a wrong magic, and an unwritten byte where each check reads. -/
theorem test_witness_PktValidate :
    ((block .tagged [0xAD] []).byte .pbuf 0 = some 0xAD ∧ (0xAD#8 : Byte) ≠ 0xAC#8)
      ∧ ((block .tagged [0xAC, 0x00, 0x00, 0x04] []).byte .pbuf 3 = some 0x04 ∧ (4#8).toNat < 5 ∧ 64 < (65#8).toNat)
      ∧ ((block .tagged pc1 []).byte .pbuf 0 = some 0xAC ∧ (block .tagged pc1 []).byte .pbuf 3 = some 0x05
        ∧ 5 ≤ (5#8).toNat ∧ (5#8).toNat ≤ 64 ∧ pc1.length = (5#8).toNat ∧ (block .tagged pc1 []).Holds .pbuf 0 pc1)
      ∧ ((block .tagged pc3 []).byte .pbuf 0 = some 0xAC ∧ (block .tagged pc3 []).byte .pbuf 3 = some 0x40
        ∧ (64#8).toNat ≤ 64 ∧ pc3.length = (64#8).toNat ∧ (block .tagged pc3 []).Holds .pbuf 0 pc3)
      ∧ State.reset.byte .pbuf 0 = none ∧ (block .tagged [0xAC] []).byte .pbuf 3 = none
      ∧ (block .tagged [0xAC, 0x00, 0x00, 0x05] []).SomeUnwritten .pbuf 0 (5#8).toNat :=
  ⟨⟨rfl, by decide⟩, ⟨rfl, by decide, by decide⟩, ⟨rfl, rfl, by decide, by decide, rfl, holds_of_read rfl⟩,
    ⟨rfl, rfl, by decide, rfl, holds_of_read (by decide +kernel)⟩, rfl, rfl, by decide, 4, by decide, rfl⟩
theorem test_witness_PktValidateDecidesValidity : (∃ t, exec .pktValidate (block .tagged pc2 []) = .next t)
    ∧ ∃ t, exec .pktValidate (block .tagged (pc2.set 5 0x23) []) = .next t :=
  ⟨⟨_, after_next (by decide +kernel)⟩, _, after_next (by decide +kernel)⟩
theorem test_witness_PacketAccessors :
    (block .tagged pc2 []).byte .pbuf 1 = some 0x02 ∧ (block .tagged pc2 []).byte .pbuf 2 = some 0x01
      ∧ (block .tagged [0xAC, 0x00, 0x00, 0x04] []).byte .pbuf 3 = some 0x04 ∧ State.reset.byte .pbuf 1 = none
      ∧ State.reset.byte .pbuf 2 = none ∧ State.reset.byte .pbuf 3 = none := ⟨rfl, rfl, rfl, rfl, rfl, rfl⟩
theorem test_witness_ChangedPacketByteIsRejected :
    let s := { State.resetWith xorInst with pbuf := cells 0 (xorPacket.set 4 0xAA) }
    CrcInjective s.params ∧ ValidPacketBytes s.params xorPacket ∧ 4 < xorPacket.length ∧ 4 ≠ 3
      ∧ xorPacket[4]? ≠ some 0xAA ∧ s.Holds .pbuf 0 (xorPacket.set 4 0xAA) :=
  ⟨xorInst_injective, ⟨rfl, rfl, by decide, by decide, rfl⟩, by decide, by decide, by decide, holds_of_read rfl⟩

/-- Index 3 and 4, a wrong header and footer magic, TAGGED and PLAIN frames, and an unwritten byte where each check
reads. -/
theorem test_witness_FrmValidate :
    ((block .tagged [] [0xAC]).byte .fbuf 0 = some 0xAC ∧ (0xAC#8 : Byte) ≠ 0xAE#8)
      ∧ ((block .tagged [] [0xAE, 0x04]).byte .fbuf 1 = some 0x04 ∧ 4 ≤ (4#8).toNat)
      ∧ ((block .tagged [] (fb7.set 19 0xAE)).byte .fbuf 1 = some 0x03 ∧ (3#8).toNat < 4
        ∧ (block .tagged [] (fb7.set 19 0xAE)).params.footerRev = .tagged
        ∧ (block .tagged [] (fb7.set 19 0xAE)).byte .fbuf 19 = some 0xAE ∧ (0xAE#8 : Byte) ≠ 0xAF#8)
      ∧ ((block .tagged [] fb7).byte .fbuf 19 = some 0xAF ∧ fb7.length = (block .tagged [] fb7).params.frameSize
        ∧ (block .tagged [] fb7).Holds .fbuf 0 fb7)
      ∧ ((block .plain [] (fb7.take 20)).params.footerRev ≠ .tagged
        ∧ (fb7.take 20).length = (block .plain [] (fb7.take 20)).params.frameSize
        ∧ (block .plain [] (fb7.take 20)).Holds .fbuf 0 (fb7.take 20))
      ∧ State.reset.byte .fbuf 0 = none ∧ (block .tagged [] [0xAE]).byte .fbuf 1 = none
      ∧ (block .tagged [] (fb7.take 19)).byte .fbuf 19 = none
      ∧ (block .tagged [] (fb7.take 20)).SomeUnwritten .fbuf 0 (block .tagged [] (fb7.take 20)).params.frameSize :=
  ⟨⟨rfl, by decide⟩, ⟨rfl, by decide⟩, ⟨rfl, by decide, rfl, rfl, by decide⟩, ⟨rfl, rfl, holds_of_read rfl⟩,
    ⟨by decide, rfl, holds_of_read rfl⟩, rfl, rfl, rfl, by decide, 20, by decide, rfl⟩
theorem test_witness_FrmValidateDecidesValidity : (∃ t, exec .frmValidate (block .tagged [] fb2) = .next t)
    ∧ ∃ t, exec .frmValidate (block .tagged [] (fb2.set 5 0xFF)) = .next t :=
  ⟨⟨_, after_next (by decide +kernel)⟩, _, after_next (by decide +kernel)⟩
theorem test_witness_FrameAccessors :
    (block .tagged [] rs1).byte .fbuf 2 = some 0x04 ∧ (block .tagged [] fb7).byte .fbuf 1 = some 0x03
      ∧ State.reset.byte .fbuf 2 = none ∧ State.reset.byte .fbuf 1 = none := ⟨rfl, rfl, rfl, rfl⟩
theorem test_witness_ChangedFrameByteIsRejected :
    let s := { State.resetWith xorInst with fbuf := cells 0 (xorFrame.set 20 0x00) }
    CrcInjective s.params ∧ ValidFrameBytes s.params xorFrame ∧ 20 < xorFrame.length
      ∧ xorFrame[20]? ≠ some 0x00 ∧ s.Holds .fbuf 0 (xorFrame.set 20 0x00) :=
  ⟨xorInst_injective, ⟨rfl, rfl, ⟨0x00, rfl, by decide⟩, fun _ => rfl, by decide +kernel⟩, by decide, by decide,
    holds_of_read (by decide +kernel)⟩

/-- The index at the frame count and one below it, the last index that fits and the first that overruns. -/
theorem test_witness_FrmBuild :
    ((block .tagged pc3 []).byte .pbuf 3 = some 0x40 ∧ ((0x40#8).toNat + 15) / 16 ≤ (4#8).toNat)
      ∧ ((3#8).toNat < ((0x40#8).toNat + 15) / 16
        ∧ (pc3.drop 48).length = min 16 ((0x40#8).toNat - 16 * (3#8).toNat)
        ∧ (block .tagged pc3 []).Holds .pbuf (16 * (3#8).toNat) (pc3.drop 48))
      ∧ ((block .tagged pc7 []).byte .pbuf 3 = some 0x11 ∧ (1#8).toNat < ((0x11#8).toNat + 15) / 16
        ∧ (pc7.drop 16).length = min 16 ((0x11#8).toNat - 16 * (1#8).toNat)
        ∧ (block .tagged pc7 []).Holds .pbuf (16 * (1#8).toNat) (pc7.drop 16))
      ∧ ((block .tagged (pc17.set 3 0x41) []).byte .pbuf 3 = some 0x41 ∧ (4#8).toNat < ((0x41#8).toNat + 15) / 16
        ∧ 4 ≤ (4#8).toNat)
      ∧ State.reset.byte .pbuf 3 = none
      ∧ ((block .tagged (pc7.take 16) []).byte .pbuf 3 = some 0x11
        ∧ (block .tagged (pc7.take 16) []).SomeUnwritten .pbuf (16 * (1#8).toNat) (min 16 ((0x11#8).toNat - 16 * (1#8).toNat))) :=
  ⟨⟨rfl, by decide⟩, ⟨by decide, rfl, holds_of_read (by decide +kernel)⟩, ⟨rfl, by decide, rfl, holds_of_read rfl⟩,
    ⟨rfl, by decide, by decide⟩, rfl, rfl, by decide, 0, by decide, rfl⟩
theorem test_witness_TransactionEndMarksTheLastFrame :
    ∃ t, exec (.frmBuild 0xFF 1) (block .tagged pc7 []) = .next t ∧ t.status.ok = true
      ∧ (block .tagged pc7 []).byte .pbuf 3 = some 0x11 := ⟨_, after_next (by decide +kernel), by decide +kernel, rfl⟩
theorem test_witness_BuildingAllFramesInOrder :
    (block .tagged pc3 []).byte .pbuf 3 = some 0x40 ∧ 5 ≤ (0x40#8).toNat ∧ (0x40#8).toNat ≤ 64
      ∧ pc3.length = (0x40#8).toNat ∧ (block .tagged pc3 []).Holds .pbuf 0 pc3
      ∧ (block .tagged pc1 []).byte .pbuf 3 = some 0x05 ∧ 5 ≤ (0x05#8).toNat ∧ (block .tagged pc1 []).Holds .pbuf 0 pc1 :=
  ⟨rfl, by decide, by decide, rfl, holds_of_read (by decide +kernel), rfl, by decide, holds_of_read rfl⟩
theorem test_witness_FrmBuildResend :
    ((rs1.drop 3).take 16).length = 16 ∧ (block .tagged [] rs1).Holds .fbuf 3 ((rs1.drop 3).take 16)
      ∧ (block .tagged [] (rs1.take 18)).SomeUnwritten .fbuf 3 16 :=
  ⟨rfl, holds_of_read rfl, by decide, 15, by decide, rfl⟩
theorem test_witness_BuiltFramesValidate :
    (inst .tagged).crcZero = true ∧ (3#8).toNat < 4 ∧ (0x00#8).getLsbD 2 = false
      ∧ (∃ t, exec (.frmBuild 0x00 3) (block .tagged pc3 []) = .next t ∧ t.status.ok = true)
      ∧ ∃ t, exec .frmBuildResend (block .tagged [] rs1) = .next t :=
  ⟨rfl, by decide, rfl, ⟨_, after_next (by decide +kernel), by decide +kernel⟩, _, after_next (by decide +kernel)⟩
/-- Index 3, the last whose slice fits, and 4, and an unwritten payload byte. -/
theorem test_witness_FrmReconstruct :
    ((block .tagged [] fb7).byte .fbuf 1 = some 0x03 ∧ (block .tagged [] fb7).byte .fbuf 2 = some 0x02 ∧ (3#8).toNat < 4
        ∧ ((fb7.drop 3).take 16).length = 16 ∧ (block .tagged [] fb7).Holds .fbuf 3 ((fb7.drop 3).take 16))
      ∧ ((block .tagged [] [0xAE, 0x04, 0x00]).byte .fbuf 1 = some 0x04
        ∧ (block .tagged [] [0xAE, 0x04, 0x00]).byte .fbuf 2 = some 0x00 ∧ 4 ≤ (4#8).toNat)
      ∧ State.reset.byte .fbuf 1 = none ∧ (block .tagged [] [0xAE, 0x00]).byte .fbuf 2 = none
      ∧ (block .tagged [] (fb7.take 18)).SomeUnwritten .fbuf 3 16 :=
  ⟨⟨rfl, rfl, by decide, rfl, holds_of_read rfl⟩, ⟨rfl, rfl, by decide⟩, rfl, rfl, by decide, 15, by decide, rfl⟩
theorem test_witness_ResendFrameIsReassembledLikeAnyOther :
    ((rs1.drop 3).take 16).length = 16 ∧ (block .tagged [] rs1).Holds .fbuf 3 ((rs1.drop 3).take 16)
      ∧ ∃ t, exec .frmBuildResend (block .tagged [] rs1) = .next t :=
  ⟨rfl, holds_of_read rfl, _, after_next (by decide +kernel)⟩
/-- The two frames of P2, the second delivered twice and first. -/
theorem test_witness_SegmentAndReassembleRoundTrip :
    (block .tagged pc7 []).params = State.reset.params ∧ (block .tagged pc7 []).params.crcZero = true
      ∧ (block .tagged pc7 []).Holds .pbuf 0 pc7 ∧ ValidPacketBytes (block .tagged pc7 []).params pc7
      ∧ ∀ i, i ∈ [1, 0, 1] ↔ i < (pc7.length + 15) / 16 := by
  refine ⟨rfl, rfl, holds_of_read rfl, ⟨rfl, rfl, by decide, by decide, by decide +kernel⟩, fun i => ?_⟩
  simp [pc7]; omega
/-- P6: frame FB12, its flags byte set to TransactionEnd, and the CRC8 that gives the new CRC. -/
theorem test_witness_HandMarkedFrameValidates :
    let s := block .tagged pc7 []
    s.params.crcZero = true ∧ (0#8).toNat < 4
      ∧ ∃ f g, exec (.frmBuild 0 0) s = .next f ∧ f.status.ok = true ∧ f.byte .fbuf 2 = some 0x00
        ∧ exec (.crc8 0#8 (BitVec.ofNat 8 s.params.frameCrcOffset) .fbuf) (f.memWrite .fbuf 2 (0x00#8 ||| 0x02#8)) = .next g
        ∧ g.status.value = 0xE3 :=
  ⟨rfl, by decide, after (exec (.frmBuild 0 0) (block .tagged pc7 [])), _, after_next (by decide +kernel),
    by decide +kernel, by decide +kernel, after_next (by decide +kernel), by decide +kernel⟩

end Sys2Proof.Tests
end

/-! PROOFS of the statements about the scope of the block (spec/00_scope.md): the initial state, the default CRC tables, and
what the faulted state holds. -/

namespace Sys2Proof.Machine

/-! ### The initial state -/

@[simp] theorem byte_resetWith (p : Params) (b : Buf) (o : Nat) : (State.resetWith p).byte b o = none := by
  cases b <;> simp [State.byte, State.resetWith, Memory.get?]

/-- Settles O23: nothing is listed in a buffer after reset, and the other values are the reset values as written. -/
theorem initialStateIsTheDefaultInstance : Obligations.InitialStateIsTheDefaultInstance :=
  ⟨rfl, rfl, byte_resetWith Params.default, rfl, rfl, rfl, rfl, by decide⟩

/-! ### The default tables -/

/-- One step of the bitwise CRC with the reflected polynomial 0x8C (spec/40_crc.md R97). -/
def crcBitStep (r : Byte) : Byte := if r.getLsbD 0 then (r >>> 1) ^^^ 0x8C#8 else r >>> 1

/-- The step undone: the polynomial's top bit is set, so bit 7 of the result tells which branch was taken. -/
def crcBitUnstep (r : Byte) : Byte := if r.getLsbD 7 then ((r ^^^ 0x8C#8) <<< 1) ||| 1#8 else r <<< 1

theorem crcBitUnstep_crcBitStep : Function.LeftInverse crcBitUnstep crcBitStep := by
  unfold Function.LeftInverse; decide +kernel

theorem crcT_default (x : Byte) : crcT Params.default x = crcBitStep^[8] x := by
  revert x; decide +kernel

/-- The default tables meet R7's bijectivity because each bitwise step can be undone. -/
theorem crcInjective_default : CrcInjective Params.default := fun x y h => by
  rw [crcT_default, crcT_default] at h
  exact crcBitUnstep_crcBitStep.injective.iterate 8 h

/-- Settles O36: the tables are compared with the bitwise steps byte by byte, and injectivity follows from the steps. -/
theorem defaultTablesAreTheBitwiseCrc : Obligations.DefaultTablesAreTheBitwiseCrc :=
  ⟨crcT_default, by decide, crcInjective_default, by decide⟩

/-! ### The faulted state -/

section FaultedState

variable {s : State} {b : Buf} {o o' n n' : Nat}

theorem orFault_of_error {α : Type} {r : Except Fault α} {k : α → Result} {f : Fault} (h : r = .error f) :
    orFault r k = .fault f := by rw [h, orFault_error]

/-- A larger range inside the buffer keeps the unwritten byte. -/
theorem someUnwritten_mono (h : s.SomeUnwritten b o n) (hl : o' ≤ o) (hr : o + n ≤ o' + n') (hs : o' + n' ≤ s.size b) :
    s.SomeUnwritten b o' n' := by
  obtain ⟨-, k, hk, hb⟩ := h
  exact ⟨hs, o - o' + k, by omega, by rwa [show o' + (o - o' + k) = o + k by omega]⟩

/-- Writing beside a range leaves its unwritten byte unwritten. -/
theorem someUnwritten_writeBytes {vs : List Byte} (h : s.SomeUnwritten b o n) (hd : o' + vs.length ≤ o ∨ o + n ≤ o') :
    (s.writeBytes b o' vs).SomeUnwritten b o n := by
  obtain ⟨hs, k, hk, hb⟩ := h
  exact ⟨by rwa [writeBytes_size], k, hk, by rwa [byte_writeBytes_out (by omega)]⟩

/-- Writing PBUF changes no other field. -/
theorem writeBytes_pbuf_eq (s : State) (o : Nat) (vs : List Byte) :
    s.writeBytes .pbuf o vs = { s with pbuf := (s.writeBytes .pbuf o vs).pbuf } := by
  ext <;> simp

/-- The footer bytes of a frame before its CRC byte (R78, R79). -/
def footerTag (p : Params) : List Byte := if p.footerRev = .tagged then [0xAF#8] else []

/-- Writing the footer magic changes one byte at most, and that one when TAGGED. -/
theorem byte_writeBytes_footerTag (s : State) (o : Nat) :
    (s.writeBytes .fbuf 19 (footerTag s.params)).byte .fbuf o =
      if o = 19 ∧ s.params.footerRev = .tagged then some 0xAF#8 else s.byte .fbuf o := by
  rcases frameSize_cases s.params with ⟨hf, hs, -⟩ | ⟨hf, -, -⟩
  · simp only [footerTag, hf, if_true, and_true, State.writeBytes]
    split
    · next h => subst h; exact byte_memWrite_same (by simp [hs])
    · next h => exact byte_memWrite_ne h
  · simp [footerTag, hf, State.writeBytes]

/-- Sealing a frame whose payload has an unwritten byte faults with the footer magic written (R154). -/
theorem sealFrame_unwritten (h : s.SomeUnwritten .fbuf 3 16) :
    s.sealFrame = .error (.unwrittenRead (s.writeBytes .fbuf 19 (footerTag s.params))) := by
  have hc : (s.writeBytes .fbuf 19 (footerTag s.params)).SomeUnwritten .fbuf 0 s.params.frameCrcOffset := by
    have hend : 19 ≤ s.params.frameCrcOffset ∧ s.params.frameCrcOffset ≤ s.params.frameSize := by
      rcases frameSize_cases s.params with ⟨-, h₁, h₂⟩ | ⟨-, h₁, h₂⟩ <;> omega
    exact someUnwritten_mono (someUnwritten_writeBytes h (.inr (by omega))) (by omega) (by omega)
      (by rw [writeBytes_size, size_fbuf]; omega)
  rw [sealFrame_eq, ← footerTag, crc8_unwritten hc]

/-- PKT_CONSTRUCT with an unwritten payload byte faults with its header written (R108). -/
theorem exec_pktConstruct_unwritten {type flags size : Byte} (hs : size.toNat ≤ 59)
    (h : s.SomeUnwritten .pbuf 4 size.toNat) :
    exec (.pktConstruct type flags size) s =
      .fault (.unwrittenRead (s.writeBytes .pbuf 0 [0xAC#8, type, flags, BitVec.ofNat 8 (size.toNat + 5)])) := by
  have hc : (s.writeBytes .pbuf 0 [0xAC#8, type, flags, BitVec.ofNat 8 (size.toNat + 5)]).SomeUnwritten .pbuf 0
      (4 + size.toNat) :=
    someUnwritten_mono (someUnwritten_writeBytes h (.inl (by simp))) (by omega) (by omega)
      (by simp only [size_pbuf]; omega)
  rw [exec, execPktConstruct, if_neg (by simp only [maxPayload, maxTotal, pktHeaderSize, pktFooterSize]; omega)]
  exact orFault_of_error (crc8_unwritten hc)

/-- FRM_BUILD_RESEND with an unwritten payload byte faults with header and footer magic written (R154). -/
theorem exec_frmBuildResend_unwritten (h : s.SomeUnwritten .fbuf 3 16) :
    exec .frmBuildResend s =
      .fault (.unwrittenRead
        ((s.writeBytes .fbuf 0 [0xAE#8, 0x00#8, 0x04#8]).writeBytes .fbuf 19 (footerTag s.params))) := by
  have hs := sealFrame_unwritten (someUnwritten_writeBytes (o' := 0) (vs := [0xAE#8, 0x00#8, 0x04#8]) h (.inl (by simp)))
  rw [writeBytes_params] at hs
  exact orFault_of_error hs

/-- The slice of a frame with index below 4 lies whole in PBUF (R160). -/
theorem sliceCount_maxTotal {i : Byte} (hi : i.toNat < 4) : sliceCount i maxTotal = 16 := by
  simp only [sliceCount, sliceOffset, frmPayloadLen, maxTotal]; omega

/-- FRM_RECONSTRUCT at its first unwritten payload byte faults with the bytes before it copied (R160). -/
theorem exec_frmReconstruct_unwritten {i fl : Byte} {d : List Byte} (hi : s.byte .fbuf 1 = some i)
    (hfl : s.byte .fbuf 2 = some fl) (h4 : i.toNat < 4) (hl : d.length < 16) (hd : s.Holds .fbuf 3 d)
    (hn : s.byte .fbuf (3 + d.length) = none) :
    exec .frmReconstruct s = .fault (.unwrittenRead (s.writeBytes .pbuf (16 * i.toNat) d)) := by
  have hin : 3 + d.length < s.size .fbuf := by
    have := frameSize_le s.params
    simp only [size_fbuf]; omega
  have hc := copyRange_error (b' := .pbuf) (o' := 16 * i.toNat) (by decide) hd hn hl
  rw [if_pos hin] at hc
  simp only [exec, execFrmReconstruct, memRead_of_byte hi, memRead_of_byte hfl, orFault_ok, sliceCount_maxTotal h4]
  exact orFault_of_error hc

end FaultedState

/-- Settles O14: each command's fault carries the state its writes before the read had made; the bytes follow from the
rules of `writeBytes`. -/
theorem faultedStateHoldsTheWritesBefore : Obligations.FaultedStateHoldsTheWritesBefore := by
  refine ⟨fun s type flags size hs h => ?_, fun s h => ?_, fun s i fl d hi hfl h4 hl hd hn => ?_⟩
  · exact ⟨_, exec_pktConstruct_unwritten hs h, holds_writeBytes (by simp),
      fun o ho => byte_writeBytes_out (.inr (by simpa using ho)), writeBytes_pbuf_eq _ _ _⟩
  · have hhdr : (s.writeBytes .fbuf 0 [0xAE#8, 0x00#8, 0x04#8]).Holds .fbuf 0 [0xAE#8, 0x00#8, 0x04#8] :=
      holds_writeBytes (by have := h.1; simp at this ⊢; omega)
    have hbyte (o : Nat) := byte_writeBytes_footerTag (s.writeBytes .fbuf 0 [0xAE#8, 0x00#8, 0x04#8]) o
    simp only [writeBytes_params] at hbyte
    refine ⟨_, exec_frmBuildResend_unwritten h, holds_congr (fun k hk => ?_) hhdr, fun o ho => ?_, by ext <;> simp⟩
    · exact byte_writeBytes_out (.inl (by simp at hk; omega))
    · rw [hbyte, byte_writeBytes_out (.inr (by simpa using ho))]
  · exact ⟨_, exec_frmReconstruct_unwritten hi hfl h4 hl hd hn, holds_writeBytes (by simp only [size_pbuf]; omega),
      fun o ho => byte_writeBytes_out ho, writeBytes_pbuf_eq _ _ _⟩

end Sys2Proof.Machine

/-! PROOFS of the statements about the block's state (spec/10_state.md): the invariant, completions, what the engine's turn
and a host access leave unchanged, the registers and the buffers as the host meets them, and what a result depends on. -/

namespace Sys2Proof.Machine

variable {s s' t t' : State} {i : Instr} {b b' : Buf} {o o' n k : Nat} {v : Byte}

/-! ### The invariant -/

/-- The invariant is coherence of STATUS and the canonical form of the buffers. -/
theorem inv_iff : s.Inv ↔ s.status.coherent = true ∧ s.BuffersOk := Iff.rfl

/-- A failing completion leaves a coherent STATUS, because its code is none of 0 and the reserved ones (R166, R167). -/
theorem coherent_finished_failure {e : ErrCode} (he : e ≠ .none) :
    (Status.finished false false e 0#8).coherent = true := by
  cases e
  case none => exact absurd rfl he
  all_goals decide

/-- A successful completion leaves a coherent STATUS, whatever its MORE and VALUE. -/
theorem coherent_finished_success (more : Bool) (v : Byte) : (Status.finished true more .none v).coherent = true := by
  simp [Status.coherent, Status.finished, ErrCode.code]

/-- Completing keeps the invariant: the STATUS is written anew, the buffers keep their form. -/
theorem exec_inv (hs : s.Inv) (h : exec i s = .next t) : t.Inv := by
  obtain ⟨-, hbuf⟩ := inv_iff.1 hs
  obtain ⟨e, he, rfl⟩ | ⟨more, v, u, rfl, -, hu, -⟩ := exec_cases h
  · exact inv_iff.2 ⟨coherent_finished_failure he, hbuf⟩
  · exact inv_iff.2 ⟨coherent_finished_success more v, hu hbuf⟩

theorem engineTurn_inv (hs : s.Inv) (h : engineTurn s = .next t) : t.Inv := by
  obtain ⟨-, rfl⟩ | ⟨-, ⟨i, hi⟩ | rfl⟩ := engineTurn_cases h
  · exact hs
  · exact exec_inv hs hi
  · exact ⟨rfl, hs.2⟩

theorem hostAccess_inv {a : Access} (hs : s.Inv) (h : hostAccess a s = .next t) : t.Inv := by
  obtain ⟨w, rfl⟩ | rfl | ⟨-, w, -, rfl⟩ | ⟨b, o, v, rfl⟩ := hostAccess_cases h
  · exact hs
  · exact hs
  · exact ⟨rfl, hs.2⟩
  · exact inv_iff.2 ⟨by rw [memWrite_status]; exact hs.1, memWrite_buffersOk hs.2⟩

theorem resetWith_inv (p : Params) : (State.resetWith p).Inv := ⟨rfl, rfl, rfl, rfl, rfl⟩

/-- Settles O17: a step is the engine's turn, the reset event or a host access, and each keeps the invariant. -/
theorem stepKeepsTheInvariant : Obligations.StepKeepsTheInvariant := by
  intro s t hs h
  obtain ⟨-, h⟩ | ⟨-, rfl⟩ | ⟨a, -, h⟩ := step_cases h
  · exact engineTurn_inv (s := { s with turns := s.turns.tail }) hs h
  · exact resetWith_inv s.params
  · exact hostAccess_inv (s := { s with turns := s.turns.tail }) hs h

/-- Settles O16: after reset STATUS is all zero and no byte is listed. -/
theorem resetMeetsTheInvariant : Obligations.ResetMeetsTheInvariant :=
  ⟨resetWith_inv Params.default, resetWith_inv⟩

/-! ### Completions -/

/-- Settles O8: failing and succeeding completions both write STATUS by `finish` and nothing else but buffers. -/
theorem completionFrame : Obligations.CompletionFrame := by
  intro i s t h
  obtain ⟨e, -, rfl⟩ | ⟨more, v, u, rfl, hu, -⟩ := exec_cases h
  · exact ⟨rfl, rfl, rfl⟩
  · rw [hu]
    exact ⟨rfl, rfl, rfl⟩

theorem exec_params (h : exec i s = .next t) : t.params = s.params := by
  rw [(completionFrame i s t h).2.2]

/-! ### The engine's turn -/

/-- A word that decodes to a command has an assigned OP (R65). -/
theorem wordOpAssigned_of_decodeWord {w : Word} (h : decodeWord w = .ok i) : wordOpAssigned w = true := by
  have hval : opField w = BitVec.ofNat 8 (opField w).toNat := by simp
  unfold decodeWord at h
  split at h
  case h_13 => cases h
  all_goals
    rename_i hop
    rw [hop] at hval
    rw [wordOpAssigned, opcodeRowOf_eq, hval]
    rfl

theorem engineTurn_idle (hb : s.status.busy = false) : engineTurn s = .next s := by
  simp [engineTurn, hb]

theorem engineTurn_decoded (hb : s.status.busy = true) (hd : decodeWord s.latch = .ok i) : engineTurn s = exec i s := by
  simp [engineTurn, engineCommand, hb, hd]

theorem engineTurn_unassigned (hb : s.status.busy = true) (hw : wordOpAssigned s.latch = false) :
    engineTurn s = .next { s with status := Status.failure 5#4 } := by
  cases hd : decodeWord s.latch with
  | ok i => simp [wordOpAssigned_of_decodeWord hd] at hw
  | error r => simp only [engineTurn, engineCommand, hb, hd, if_true]; rfl

/-- Settles O6: the engine is next in turn, so the step is its turn with that turn taken. -/
theorem stepRunsTheDecodedCommand : Obligations.StepRunsTheDecodedCommand := by
  intro s hb hturn
  rw [step_engine hturn]
  exact ⟨fun i hd => engineTurn_decoded hb hd, fun hw => engineTurn_unassigned hb hw⟩

/-- Settles O7: the step is the engine's turn, which is none while BUSY = 0. -/
theorem idleEngineChangesNothing : Obligations.IdleEngineChangesNothing := fun s hb hturn => by
  rw [step_engine hturn]
  exact engineTurn_idle (s := { s with turns := s.turns.tail }) hb

/-! ### Steps of an idle block -/

/-- An idle block keeps STATUS, is reset, or is issued a command by a word write at BASE (R16, R30, R33). -/
theorem step_idle_cases (hb : s.status.busy = false) (h : step s = .next t) :
    t.status = s.status
      ∨ (s.turns.head? = some .reset ∧ t.status = .zero)
      ∨ ∃ w, s.turns.head? = some (.host (.write s.params.base 32 w)) ∧ t.latch = w := by
  obtain ⟨-, h⟩ | ⟨hr, rfl⟩ | ⟨a, ha, h⟩ := step_cases h
  · rw [engineTurn_idle (s := { s with turns := s.turns.tail }) hb] at h
    cases h
    exact .inl rfl
  · exact .inr (.inl ⟨hr, rfl⟩)
  · obtain ⟨w, rfl⟩ | rfl | ⟨-, w, rfl, rfl⟩ | ⟨b, o, v, rfl⟩ := hostAccess_cases h
    · exact .inl rfl
    · exact .inl rfl
    · exact .inr (.inr ⟨w, ha, rfl⟩)
    · exact .inl (memWrite_status _ b o v)

/-- BUSY and DONE exclude each other. -/
theorem not_busy_of_done (hs : s.Inv) (hd : s.status.done = true) : s.status.busy = false := by
  have hc := hs.1
  cases hb : s.status.busy with
  | false => rfl
  | true => simp [Status.coherent, hb, hd] at hc

/-- Settles O18: DONE excludes BUSY, and an idle block changes STATUS only by reset or a CMD write. -/
theorem doneStaysUntilCmdWriteOrReset : Obligations.DoneStaysUntilCmdWriteOrReset := by
  intro s t hs hd h hne
  obtain heq | ⟨hr, -⟩ | ⟨w, hw, -⟩ := step_idle_cases (not_busy_of_done hs hd) h
  · exact absurd heq hne
  · exact .inl hr
  · exact .inr ⟨w, hw⟩

/-- Settles O19: of the ways an idle block can go on, only the CMD write sets BUSY. -/
theorem onlyACmdWriteStartsACommand : Obligations.OnlyACmdWriteStartsACommand := by
  intro s t hb h ht
  obtain heq | ⟨-, hz⟩ | hw := step_idle_cases hb h
  · rw [heq, hb] at ht; cases ht
  · rw [hz] at ht; cases ht
  · exact hw

/-! ### Reset -/

theorem status_word_zero : Status.zero.word = 0#32 := by decide

/-- Settles O22: the reset turn leaves `State.resetWith` of the same parameters, which is idle. -/
theorem resetEventLeavesTheStatedValues : Obligations.ResetEventLeavesTheStatedValues := by
  intro s ts h
  refine ⟨{ State.resetWith s.params with turns := ts }, by rw [step_cons h]; rfl, rfl, status_word_zero, rfl, rfl, rfl, ?_,
    rfl, engineTurn_idle rfl, fun w => rfl⟩
  intro b o
  rw [byte_setTurns, byte_resetWith]

/-! ### The registers -/

/-- The bit of the STATUS word at each position (R20): appending puts the later fields lower. -/
theorem getLsbD_statusWord (st : Status) (k : Nat) :
    st.word.getLsbD k =
      if k < 1 then (BitVec.ofBool st.busy).getLsbD k
      else if k < 2 then (BitVec.ofBool st.done).getLsbD (k - 1)
      else if k < 3 then (BitVec.ofBool st.ok).getLsbD (k - 2)
      else if k < 4 then (BitVec.ofBool st.more).getLsbD (k - 3)
      else if k < 8 then st.err.getLsbD (k - 4)
      else if k < 16 then st.value.getLsbD (k - 8)
      else false := by
  change BitVec.getLsbD (w := 16 + 8 + 4 + 1 + 1 + 1 + 1) (_ ++ _ ++ _ ++ _ ++ _ ++ _ ++ _) k = _
  simp only [BitVec.getLsbD_append]
  simp only [BitVec.getLsbD_zero, Nat.sub_sub, Nat.reduceAdd, show k - 1 < 1 ↔ k < 2 by omega,
    show k - 2 < 1 ↔ k < 3 by omega, show k - 3 < 1 ↔ k < 4 by omega, show k - 4 < 4 ↔ k < 8 by omega,
    show k - 8 < 8 ↔ k < 16 by omega]

/-- Settles O24: the single bits and the three fields are read off bit by bit. -/
theorem statusWordLayout : Obligations.StatusWordLayout := by
  intro st
  refine ⟨?_, ?_, ?_, ?_, ?_, ?_, ?_⟩
  · simpa using getLsbD_statusWord st 0
  · simpa using getLsbD_statusWord st 1
  · simpa using getLsbD_statusWord st 2
  · simpa using getLsbD_statusWord st 3
  · refine BitVec.eq_of_getLsbD_eq fun k hk => ?_
    rw [BitVec.getLsbD_extractLsb', getLsbD_statusWord, if_neg (by omega), if_neg (by omega), if_neg (by omega),
      if_neg (by omega), if_pos (by omega)]
    simp [hk]
  · refine BitVec.eq_of_getLsbD_eq fun k hk => ?_
    rw [BitVec.getLsbD_extractLsb', getLsbD_statusWord, if_neg (by omega), if_neg (by omega), if_neg (by omega),
      if_neg (by omega), if_neg (by omega), if_pos (by omega)]
    simp [hk]
  · refine BitVec.eq_of_getLsbD_eq fun k hk => ?_
    rw [BitVec.getLsbD_extractLsb', getLsbD_statusWord, if_neg (by omega), if_neg (by omega), if_neg (by omega),
      if_neg (by omega), if_neg (by omega), if_neg (by omega)]
    simp

/-- Settles O25: each clause is the one host access to CMD, made with its turn taken. -/
theorem cmdRegister : Obligations.CmdRegister := by
  intro s ts w
  refine ⟨fun h hb => ?_, fun h hb => ?_, fun h => ?_⟩ <;> rw [step_cons h]
  · exact host_write_cmd (s := { s with turns := ts }).trans (if_neg (by simp [hb]))
  · exact host_write_cmd (s := { s with turns := ts }).trans (if_pos hb)
  · exact host_read_cmd (s := { s with turns := ts })

/-- A coherent STATUS that is busy has no other field set (R32). -/
theorem status_eq_issued_of_busy {st : Status} (hc : st.coherent = true) (hb : st.busy = true) : st = .issued := by
  obtain ⟨busy, done, ok, more, err, value⟩ := st
  obtain rfl : busy = true := hb
  cases done with
  | true => simp [Status.coherent] at hc
  | false =>
    obtain ⟨⟨⟨rfl, rfl⟩, hmv⟩, -⟩ :
        ((ok = false ∧ err = 0#4) ∧ (ok = true ∨ more = false ∧ value = 0#8)) ∧ err.toNat ≤ 6 := by
      simpa [Status.coherent] using hc
    obtain ⟨rfl, rfl⟩ := hmv.resolve_left Bool.false_ne_true
    rfl

/-- Settles O26: the accesses are the host's at STATUS, and coherence leaves BUSY alone set while a command runs. -/
theorem statusRegister : Obligations.StatusRegister := by
  intro s ts w
  refine ⟨fun h => ?_, fun hs hb => ?_, fun h => ?_⟩
  · rw [step_cons h]
    exact host_read_status (s := { s with turns := ts })
  · rw [status_eq_issued_of_busy hs.1 hb]
    decide
  · rw [step_cons h]
    exact host_write_status (s := { s with turns := ts })

/-- CONFIG depends on the footer revision alone (R21). -/
theorem configWord_eq (p : Params) :
    configWord p = if p.footerRev = .tagged then 0x10401501#32 else 0x10401400#32 := by
  rcases frameSize_cases p with ⟨hf, hn, -⟩ | ⟨hf, hn, -⟩ <;> rw [configWord, hf, hn] <;> decide

theorem engineTurn_params (h : engineTurn s = .next t) : t.params = s.params := by
  obtain ⟨-, rfl⟩ | ⟨-, ⟨i, hi⟩ | rfl⟩ := engineTurn_cases h
  · rfl
  · exact exec_params hi
  · rfl

theorem hostAccess_params {a : Access} (h : hostAccess a s = .next t) : t.params = s.params := by
  obtain ⟨w, rfl⟩ | rfl | ⟨-, w, -, rfl⟩ | ⟨b, o, v, rfl⟩ := hostAccess_cases h
  · rfl
  · rfl
  · rfl
  · exact memWrite_params s b o v

theorem step_params (h : step s = .next t) : t.params = s.params := by
  obtain ⟨-, h⟩ | ⟨-, rfl⟩ | ⟨a, -, h⟩ := step_cases h
  · exact engineTurn_params (s := { s with turns := s.turns.tail }) h
  · rfl
  · exact hostAccess_params (s := { s with turns := s.turns.tail }) h

/-- Settles O27: the accesses are the host's at CONFIG, whose word is made of the parameters, which every step keeps. -/
theorem configRegister : Obligations.ConfigRegister := by
  refine ⟨fun s ts h => ?_, fun s ts w h => ?_, fun s t h => step_params h⟩ <;> rw [step_cons h]
  · rw [← configWord_eq]
    exact host_read_config (s := { s with turns := ts })
  · exact host_write_config (s := { s with turns := ts })

/-! ### Host accesses to a buffer -/

/-- What a byte holds after one byte was written: every other byte of either buffer is as it was. -/
theorem byte_memWrite :
    (s.memWrite b o v).byte b' o' = if b' = b ∧ o' = o ∧ o < s.size b then some v else s.byte b' o' := by
  by_cases hb : b' = b
  · subst hb
    by_cases ho : o' = o
    · subst ho
      by_cases hlt : o' < s.size b'
      · simp [byte_memWrite_same hlt, hlt]
      · simp [State.memWrite, hlt]
    · simp [byte_memWrite_ne ho, ho]
  · simp [byte_memWrite_other hb, hb]

/-- Writing one byte changes no field but the buffers. -/
theorem memWrite_eq_buffers (s : State) (b : Buf) (o : Nat) (v : Byte) :
    s.memWrite b o v = { s with pbuf := (s.memWrite b o v).pbuf, fbuf := (s.memWrite b o v).fbuf } :=
  state_eq_buffers (by simp) (by simp) (by simp) (by simp) (by simp)

/-- A buffer the host may write it may also read (R194). -/
theorem readHazard_of_writeHazard (h : s.writeHazard b = false) : s.readHazard b = false := by
  simp only [State.writeHazard, State.readHazard, Bool.and_eq_false_iff, Bool.or_eq_false_iff] at h ⊢
  exact h.imp_right And.right

theorem step_write_buffer {ts : List Turn} {d : Word} (hz : s.writeHazard b = false) (ho : o < s.size b)
    (h : s.turns = .host (.write (s.params.base + bufferOffset b o) 8 d) :: ts) :
    step s = .next ({ s with turns := ts }.memWrite b o (d.setWidth 8)) := by
  rw [step_cons h]
  exact (host_write_buffer (s := { s with turns := ts }) (by rwa [size_setTurns])).trans
    (if_neg (by rw [show State.writeHazard { s with turns := ts } b = false from hz]; exact Bool.false_ne_true))

theorem step_read_buffer {ts : List Turn} (hz : s.readHazard b = false) (ho : o < s.size b)
    (h : s.turns = .host (.read (s.params.base + bufferOffset b o) 8) :: ts) :
    step s = orFault (State.memRead { s with turns := ts } b o) fun v =>
      .next { s with turns := ts, readData := some (v.setWidth 32) } := by
  rw [step_cons h]
  exact (host_read_buffer (s := { s with turns := ts }) (by rwa [size_setTurns])).trans
    (if_neg (by rw [show State.readHazard { s with turns := ts } b = false from hz]; exact Bool.false_ne_true))

/-- Settles O35: the access is `memRead` of the byte. -/
theorem hostBufferRead : Obligations.HostBufferRead := by
  intro s ts b o hz ho h
  rw [step_read_buffer hz ho h]
  refine ⟨fun v hv => ?_, fun hn => ?_⟩
  · rw [memRead_of_byte (by rwa [byte_setTurns])]
    rfl
  · rw [memRead_unwritten (by rwa [byte_setTurns]) (by rwa [size_setTurns])]
    rfl

/-- Settles O34: the access is `memWrite` of the byte, which the next read meets. -/
theorem hostBufferWrite : Obligations.HostBufferWrite := by
  intro s ts b o d hz ho h
  have hsame : (State.memWrite { s with turns := ts } b o (d.setWidth 8)).byte b o = some (d.setWidth 8) :=
    byte_memWrite_same (by rwa [size_setTurns])
  refine ⟨_, step_write_buffer hz ho h, hsame, fun b' o' hne => ?_, memWrite_eq_buffers _ _ _ _, fun ts' hts => ?_⟩
  · rw [byte_memWrite, byte_setTurns, if_neg (by tauto)]
  · have hz' : (State.memWrite { s with turns := ts } b o (d.setWidth 8)).readHazard b = false := by
      simpa [State.readHazard] using readHazard_of_writeHazard hz
    refine (hostBufferRead _ ts' b o hz' (by rwa [memWrite_size, size_setTurns]) ?_).1 _ hsame
    rw [memWrite_turns, memWrite_params, hts]


/-! ### A command after any number of polls -/

/-- The decoder reads back what the encoder packed (R61, R62). -/
theorem decodeWord_encode (i : Instr) : decodeWord (encode i) = .ok i := by
  cases i <;> simp [encode, decodeWord]

/-- A run goes on from the next state. -/
theorem run_succ_of_step {M : Host.Core} {x y : M.State} (h : M.step x = .next y) : M.run (n + 1) x = M.run n y := by
  rw [Host.Core.run, h]

theorem run_one {M : Host.Core} (x : M.State) : M.run 1 x = M.step x := by
  rw [Host.Core.run]
  cases M.step x <;> rfl

theorem issued_word : Status.issued.word = 1#32 := by decide

/-- While a command runs, polls answer BUSY alone and leave it to run on the same buffers (R31, R32). -/
theorem run_polls (hst : s.status = .issued) (hd : decodeWord s.latch = .ok i)
    (hts : s.turns = List.replicate k (lwStatus s.params) ++ [.engine]) :
    Host.Core.run core (k + 1) s =
      exec i { s with turns := [], readData := if k = 0 then s.readData else some 1#32 } := by
  induction k generalizing s with
  | zero =>
    refine (run_one (M := core) s).trans ((step_cons hts).trans ?_)
    exact engineTurn_decoded (s := { s with turns := [] }) (by rw [hst]; rfl) hd
  | succ k ih =>
    have hstep : step s =
        .next { s with turns := List.replicate k (lwStatus s.params) ++ [.engine], readData := some 1#32 } := by
      rw [step_cons hts, ← issued_word, ← hst]
      exact host_read_status (s := { s with turns := List.replicate k (lwStatus s.params) ++ [.engine] })
    refine (run_succ_of_step (M := core) hstep).trans ?_
    simpa using ih (s := { s with turns := _, readData := some 1#32 }) hst hd rfl

/-- Settles O21: the CMD write issues the command, and the polls leave it to run. -/
theorem commandRunsAfterAnyPolls : Obligations.CommandRunsAfterAnyPolls := by
  intro s i k hb hts
  refine (run_succ_of_step (M := core) ((cmdRegister s _ _).1 hts hb)).trans ?_
  exact run_polls (s := { s.issue (encode i) with turns := List.replicate k (lwStatus s.params) ++ [.engine] })
    rfl (decodeWord_encode i) rfl

/-! ### Written bytes stay written -/

/-- Every byte written in `s` is written in `t` too. -/
def KeepsWritten (s t : State) : Prop := ∀ b o, (s.byte b o).isSome = true → (t.byte b o).isSome = true

theorem keepsWritten_refl (s : State) : KeepsWritten s s := fun _ _ h => h

theorem keepsWritten_trans {u : State} (h : KeepsWritten s t) (h' : KeepsWritten t u) : KeepsWritten s u :=
  fun b o hb => h' b o (h b o hb)

theorem keepsWritten_memWrite (s : State) (b : Buf) (o : Nat) (v : Byte) : KeepsWritten s (s.memWrite b o v) := by
  intro b' o' h
  rw [byte_memWrite]
  split
  · rfl
  · exact h

theorem keepsWritten_writeBytes (s : State) (b : Buf) (o : Nat) (vs : List Byte) :
    KeepsWritten s (s.writeBytes b o vs) := by
  induction vs generalizing s o with
  | nil => exact keepsWritten_refl s
  | cons v vs ih => exact keepsWritten_trans (keepsWritten_memWrite s b o v) (ih _ _)

theorem keepsWritten_setStatus (s : State) (st : Status) : KeepsWritten s { s with status := st } := fun b o h => by
  rwa [byte_setStatus]

theorem keepsWritten_sealFrame (h : s.sealFrame = .ok t) : KeepsWritten s t := by
  rw [sealFrame_eq] at h
  split at h
  · cases h
  · cases h
    exact keepsWritten_trans (keepsWritten_writeBytes _ _ _ _) (keepsWritten_memWrite _ _ _ _)

/-- A completed command leaves a buffer outside its write set as it was (R194). -/
theorem exec_cells_of_not_mem_writeSet (h : exec i s = .next t) (hb : b ∉ writeSet i) : t.cells b = s.cells b := by
  obtain ⟨e, -, rfl⟩ | ⟨more, v, u, rfl, -, -, -, hp, hf⟩ := exec_cases h
  · cases b <;> rfl
  · cases b with
    | pbuf => exact hp (by rintro _ _ _ rfl; simp [writeSet] at hb) (by rintro rfl; simp [writeSet] at hb)
    | fbuf => exact hf (by rintro _ _ rfl; simp [writeSet] at hb) (by rintro rfl; simp [writeSet] at hb)

/-- Writing a frame around `vs` keeps the written bytes, whatever the frame holds. -/
theorem keepsWritten_sealed {vs : List Byte} {ok more : Bool} {e : ErrCode}
    (h : orFault (s.writeBytes .fbuf 0 vs).sealFrame (fun u => u.finish ok more e v) = .next t) : KeepsWritten s t := by
  obtain ⟨u, hu, h⟩ := orFault_next h
  cases finish_next h
  exact keepsWritten_trans (keepsWritten_writeBytes _ _ _ _)
    (keepsWritten_trans (keepsWritten_sealFrame hu) (keepsWritten_setStatus _ _))

/-- A completed command unwrites no byte: the four commands with a write set store bytes, the others store none. -/
theorem exec_keepsWritten (h : exec i s = .next t) : KeepsWritten s t := by
  have unchanged (hw : writeSet i = []) : KeepsWritten s t := fun b o hb => by
    rwa [byte_congr (exec_params h) (exec_cells_of_not_mem_writeSet h (by simp [hw]))]
  cases i with
  | pktConstruct a b c =>
    simp only [exec, execPktConstruct] at h
    split at h
    · cases finish_next h
      exact keepsWritten_setStatus _ _
    · obtain ⟨w, -, h⟩ := orFault_next h
      cases finish_next h
      exact keepsWritten_trans (keepsWritten_writeBytes _ _ _ _)
        (keepsWritten_trans (keepsWritten_memWrite _ _ _ _) (keepsWritten_setStatus _ _))
  | frmBuild a b =>
    simp only [exec, execFrmBuild] at h
    obtain ⟨l, -, h⟩ := orFault_next h
    split at h
    · cases finish_next h
      exact keepsWritten_setStatus _ _
    · obtain ⟨d, -, h⟩ := orFault_next h
      exact keepsWritten_sealed h
  | frmBuildResend => exact keepsWritten_sealed h
  | frmReconstruct =>
    simp only [exec, execFrmReconstruct] at h
    obtain ⟨j, -, h⟩ := orFault_next h
    obtain ⟨fl, -, h⟩ := orFault_next h
    obtain ⟨u, hu, h⟩ := orFault_next h
    cases finish_next h
    rcases copyRange_cases (s := s) (b := .fbuf) (b' := .pbuf) (by decide) frmPayloadOffset (sliceOffset j)
      (sliceCount j maxTotal) with ⟨vs, -, -, hc⟩ | ⟨vs, -, -, -, hc⟩
    · cases hc.symm.trans hu
      exact keepsWritten_trans (keepsWritten_writeBytes _ _ _ _) (keepsWritten_setStatus _ _)
    · cases hc.symm.trans hu
  | crc8 | pktValidate | pktGetType | pktGetFlags | pktGetPayloadSize | frmValidate | frmIsResend | frmGetIndex =>
    exact unchanged rfl

theorem engineTurn_keepsWritten (h : engineTurn s = .next t) : KeepsWritten s t := by
  obtain ⟨-, rfl⟩ | ⟨-, ⟨i, hi⟩ | rfl⟩ := engineTurn_cases h
  · exact keepsWritten_refl _
  · exact exec_keepsWritten hi
  · exact keepsWritten_setStatus _ _

theorem hostAccess_keepsWritten {a : Access} (h : hostAccess a s = .next t) : KeepsWritten s t := by
  obtain ⟨w, rfl⟩ | rfl | ⟨-, w, -, rfl⟩ | ⟨b, o, v, rfl⟩ := hostAccess_cases h
  · exact fun b o hb => by rwa [byte_congr (t := s.respond w) rfl (by cases b <;> rfl)]
  · exact keepsWritten_refl _
  · exact fun b o hb => by rwa [byte_congr (t := s.issue w) rfl (by cases b <;> rfl)]
  · exact keepsWritten_memWrite _ _ _ _

/-- Settles O20: the engine's turn and a host access keep written bytes written, so the step was the reset event. -/
theorem onlyResetUnwritesAByte : Obligations.OnlyResetUnwritesAByte := by
  intro s t b o h hs ht
  have notKept (hk : KeepsWritten { s with turns := s.turns.tail } t) : False := by
    have := hk b o (by rwa [byte_setTurns])
    simp [ht] at this
  obtain ⟨-, h⟩ | ⟨hr, -⟩ | ⟨a, -, h⟩ := step_cases h
  · exact (notKept (engineTurn_keepsWritten h)).elim
  · exact hr
  · exact (notKept (hostAccess_keepsWritten h)).elim

/-! ### What a result depends on

Two runs of one command, from `s` and from `s'`, are compared step by step: the states they reach agree on the parameters,
and on each byte they agree or neither run has touched it (R23). -/

/-- The states `t` and `t'` that runs from `s` and `s'` have reached: every byte is the same in both or untouched in both. -/
structure Alike (s s' t t' : State) : Prop where
  params : t.params = t'.params
  byte : ∀ b o, t.byte b o = t'.byte b o ∨ t.byte b o = s.byte b o ∧ t'.byte b o = s'.byte b o

/-- The two runs end in the same fault but for the faulted state, or in next states with one STATUS. -/
inductive EndAlike (s s' : State) : Result → Result → Prop
  | fault {f : Fault} {u : State} (h : Alike s s' f.state u) : EndAlike s s' (.fault f) (.fault (f.withState u))
  | next {t t' : State} (hst : t'.status = t.status) (h : Alike s s' t t') : EndAlike s s' (.next t) (.next t')

theorem alike_refl (hp : s.params = s'.params) : Alike s s' s s' := ⟨hp, fun _ _ => .inr ⟨rfl, rfl⟩⟩

/-- Storing one byte in both states keeps them alike. -/
theorem alike_memWrite (h : Alike s s' t t') (b : Buf) (o : Nat) (v : Byte) :
    Alike s s' (t.memWrite b o v) (t'.memWrite b o v) := by
  refine ⟨by simp [h.params], fun b' o' => ?_⟩
  rw [byte_memWrite, byte_memWrite, size_congr h.params]
  split
  · exact .inl rfl
  · exact h.byte b' o'

theorem alike_writeBytes (h : Alike s s' t t') (b : Buf) (o : Nat) (vs : List Byte) :
    Alike s s' (t.writeBytes b o vs) (t'.writeBytes b o vs) := by
  induction vs generalizing t t' o with
  | nil => exact h
  | cons v vs ih => exact ih (alike_memWrite h b o v) (o + 1)

theorem byte_eq_none (ho : s.size b ≤ o) : s.byte b o = none := if_neg (Nat.not_lt.2 ho)

/-- Storing one byte in both states makes it the same there, and leaves a byte the same that was. -/
theorem byte_memWrite_congr (hp : t'.params = t.params) (h : k = o ∨ t'.byte b k = t.byte b k) :
    (t'.memWrite b o v).byte b k = (t.memWrite b o v).byte b k := by
  rw [byte_memWrite, byte_memWrite, size_congr hp]
  split
  · rfl
  · next hn =>
    obtain rfl | heq := h
    · have ho : t.size b ≤ k := by simpa using hn
      rw [byte_eq_none ho, byte_eq_none (by rwa [size_congr hp])]
    · exact heq

/-- The same for a run of bytes. -/
theorem byte_writeBytes_congr {vs : List Byte} (hp : t'.params = t.params)
    (h : o ≤ k ∧ k < o + vs.length ∨ t'.byte b k = t.byte b k) :
    (t'.writeBytes b o vs).byte b k = (t.writeBytes b o vs).byte b k := by
  induction vs generalizing t t' o with
  | nil => exact h.resolve_left (by simp)
  | cons v vs ih =>
    refine ih (by simp [hp]) ?_
    rw [List.length_cons] at h
    by_cases hk : o + 1 ≤ k ∧ k < o + 1 + vs.length
    · exact .inl hk
    · exact .inr (byte_memWrite_congr hp (h.imp_left (by omega)))

theorem endAlike_finish (h : Alike s s' t t') (ok more : Bool) (e : ErrCode) (v : Byte) :
    EndAlike s s' (t.finish ok more e v) (t'.finish ok more e v) :=
  .next rfl ⟨h.params, fun b o => by simpa using h.byte b o⟩

theorem endAlike_ite {p : Prop} [Decidable p] {x x' y y' : Result} (hx : EndAlike s s' x x') (hy : EndAlike s s' y y') :
    EndAlike s s' (if p then x else y) (if p then x' else y') := by
  split
  · exact hx
  · exact hy

/-- A read that answers or faults alike in both states, but for the state the fault holds, goes on alike. -/
theorem endAlike_orFault {α : Type} {r r' : Except Fault α} {k k' : α → Result} (h : Alike s s' t t')
    (hr : r' = r.mapError (·.withState t')) (hf : ∀ f, r = .error f → f.state = t)
    (hk : ∀ a, r = .ok a → EndAlike s s' (k a) (k' a)) : EndAlike s s' (orFault r k) (orFault r' k') := by
  subst hr
  cases r with
  | error f => exact .fault (hf f rfl ▸ h)
  | ok a => exact hk a rfl

theorem endAlike_memRead {k k' : Byte → Result} (h : Alike s s' t t') (hb : t.byte b o = t'.byte b o)
    (hk : ∀ v, EndAlike s s' (k v) (k' v)) : EndAlike s s' (orFault (t.memRead b o) k) (orFault (t'.memRead b o) k') :=
  endAlike_orFault h (memRead_congr h.params.symm hb.symm) (fun _ => faults_memRead) fun v _ => hk v

/-- The CRC of a range depends on its bytes and the tables alone, but for the state a fault holds. -/
theorem crc8_congr (hp : t.params = s.params) (h : ∀ k, k < n → t.byte b (o + k) = s.byte b (o + k)) :
    t.crc8 b o n = (s.crc8 b o n).mapError (·.withState t) := by
  rw [State.crc8, State.crc8, readRange_congr hp h, hp]
  cases s.readRange b o n <;> rfl

theorem endAlike_crc8 {k k' : Byte → Result} (h : Alike s s' t t')
    (hb : ∀ j, j < n → t.byte b (o + j) = t'.byte b (o + j)) (hk : ∀ v, EndAlike s s' (k v) (k' v)) :
    EndAlike s s' (orFault (t.crc8 b o n) k) (orFault (t'.crc8 b o n) k') :=
  endAlike_orFault h (crc8_congr h.params.symm fun j hj => (hb j hj).symm) (fun _ => faults_crc8) fun v _ => hk v

theorem slice_congr {j l : Byte} (hp : t.params = s.params) (h : ∀ o, t.byte .pbuf o = s.byte .pbuf o) :
    t.slice j l = (s.slice j l).mapError (·.withState t) := by
  rw [State.slice, State.slice, readRange_congr hp fun _ _ => h _]
  cases s.readRange .pbuf (sliceOffset j) (sliceCount j l.toNat) <;> rfl

/-- A slice is a whole frame payload: the packet's bytes filled up with zeros (R142). -/
theorem slice_length {j l : Byte} {d : List Byte} (h : s.slice j l = .ok d) : d.length = 16 := by
  unfold State.slice at h
  split at h
  · cases h
  · rename_i bs hbs
    cases h
    have := (readRange_ok_iff.1 hbs).1
    simp only [sliceCount] at this
    simp only [List.length_append, List.length_replicate, frmPayloadLen] at this ⊢
    omega

/-- Sealing is the CRC over the frame with its footer magic, stored at its offset. -/
theorem orFault_sealFrame (s : State) (k : State → Result) :
    orFault s.sealFrame k =
      orFault ((s.writeBytes .fbuf 19 (footerTag s.params)).crc8 .fbuf 0 s.params.frameCrcOffset) fun c =>
        k ((s.writeBytes .fbuf 19 (footerTag s.params)).memWrite .fbuf s.params.frameCrcOffset c) := by
  rw [sealFrame_eq, ← footerTag]
  cases (s.writeBytes .fbuf 19 (footerTag s.params)).crc8 .fbuf 0 s.params.frameCrcOffset <;> rfl

/-- Sealing reads the frame up to its footer, so two states that agree there end alike. -/
theorem endAlike_sealFrame (h : Alike s s' t t') (hb : ∀ j, j < 19 → t.byte .fbuf j = t'.byte .fbuf j)
    (ok more : Bool) (e : ErrCode) (v : Byte) :
    EndAlike s s' (orFault t.sealFrame fun u => u.finish ok more e v)
      (orFault t'.sealFrame fun u => u.finish ok more e v) := by
  have hw := alike_writeBytes h .fbuf 19 (footerTag t'.params)
  rw [orFault_sealFrame, orFault_sealFrame, h.params]
  refine endAlike_crc8 hw (fun j hj => ?_) fun c => endAlike_finish (alike_memWrite hw _ _ _) _ _ _ _
  rw [Nat.zero_add]
  refine byte_writeBytes_congr h.params ?_
  rcases Nat.lt_or_ge j 19 with hlt | hge
  · exact .inr (hb j hlt)
  · refine .inl ⟨hge, ?_⟩
    rcases frameSize_cases t'.params with ⟨h1, -, h3⟩ | ⟨h1, -, h3⟩ <;> simp [footerTag, h1] <;> omega

/-- FRM_RECONSTRUCT's copy from FBUF: the same bytes are read, so the same are stored. -/
theorem endAlike_copyRange {j l m : Nat} {k k' : State → Result} (hp : s.params = s'.params)
    (hb : ∀ o, s.byte .fbuf o = s'.byte .fbuf o)
    (hk : ∀ u u', Alike s s' u u' → EndAlike s s' (k u) (k' u')) :
    EndAlike s s' (orFault (s.copyRange .fbuf j .pbuf l m) k) (orFault (s'.copyRange .fbuf j .pbuf l m) k') := by
  have hw (vs) := alike_writeBytes (alike_refl hp) .pbuf l vs
  have hh {vs} (h : s.Holds .fbuf j vs) : s'.Holds .fbuf j vs := holds_congr (fun _ _ => (hb _).symm) h
  obtain ⟨vs, rfl, hs, hc⟩ | ⟨vs, hl, hs, hn, hc⟩ :=
    copyRange_cases (s := s) (b := .fbuf) (b' := .pbuf) (by decide) j l m
  · rw [hc, copyRange_ok (by decide) (hh hs)]
    exact hk _ _ (hw vs)
  · rw [hc, copyRange_error (by decide) (hh hs) (by rw [← hb, hn]) hl, size_congr hp]
    split
    · exact .fault (f := .unwrittenRead _) (hw vs)
    · exact .fault (f := .frameSourceOverrun _) (hw vs)

/-- The two runs of a command from states that agree on its read set end alike. -/
theorem exec_endAlike (i : Instr) (hp : s.params = s'.params) (hb : ∀ b ∈ readSet i, ∀ o, s.byte b o = s'.byte b o) :
    EndAlike s s' (exec i s) (exec i s') := by
  have same := alike_refl hp
  have finish (ok more e v) := endAlike_finish same ok more e v
  have failure (e) : EndAlike s s' (s.fail e) (s'.fail e) := finish false false e 0#8
  have one {b : Buf} {o : Nat} {k k' : Byte → Result} (hr : b ∈ readSet i) :=
    endAlike_memRead (k := k) (k' := k') same (hb b hr o)
  have crc {b : Buf} {o n : Nat} {k k' : Byte → Result} (hr : b ∈ readSet i) :=
    endAlike_crc8 (k := k) (k' := k') (o := o) (n := n) same fun _ _ => hb b hr _
  cases i with
  | crc8 start len sel =>
    simp only [exec, execCrc8, size_congr hp]
    exact endAlike_ite (failure _) (crc (by simp [readSet]) fun v => finish _ _ _ v)
  | pktConstruct type flags size =>
    have hw := alike_writeBytes same .pbuf 0 [pktMagic, type, flags, packetLength size]
    refine endAlike_ite (failure _) <|
      endAlike_crc8 hw (fun j _ => ?_) fun c => endAlike_finish (alike_memWrite hw _ _ _) _ _ _ _
    exact byte_writeBytes_congr hp (.inr (hb _ (by simp [readSet]) _))
  | pktValidate =>
    have hr : Buf.pbuf ∈ readSet .pktValidate := by simp [readSet]
    exact one hr fun m => endAlike_ite (failure _) <| one hr fun l => endAlike_ite (failure _) <|
      crc hr fun c => endAlike_ite (failure _) (finish _ _ _ _)
  | pktGetType => exact one (by simp [readSet]) fun v => finish _ _ _ v
  | pktGetFlags => exact one (by simp [readSet]) fun v => finish _ _ _ v
  | pktGetPayloadSize => exact one (by simp [readSet]) fun l => finish _ _ _ _
  | frmValidate =>
    have hr : Buf.fbuf ∈ readSet .frmValidate := by simp [readSet]
    have last : EndAlike s s' (checkFrameCrc s) (checkFrameCrc s') := by
      rw [checkFrameCrc, checkFrameCrc, hp]
      exact crc hr fun c => endAlike_ite (failure _) (finish _ _ _ _)
    refine one hr fun m => endAlike_ite (failure _) <| one hr fun j => endAlike_ite (failure _) ?_
    rw [hp]
    cases s'.params.footerRev with
    | tagged => exact one hr fun fm => endAlike_ite (failure _) last
    | plain => exact last
  | frmIsResend => exact one (by simp [readSet]) fun fl => finish _ _ _ _
  | frmGetIndex => exact one (by simp [readSet]) fun v => finish _ _ _ v
  | frmBuild flags index =>
    have hr : Buf.pbuf ∈ readSet (.frmBuild flags index) := by simp [readSet]
    refine one hr fun l => endAlike_ite (finish _ _ _ _) <|
      endAlike_orFault same (slice_congr hp.symm fun o => (hb _ hr o).symm) (fun _ => faults_slice) fun d hd => ?_
    refine endAlike_sealFrame (alike_writeBytes same _ _ _) (fun j hj => byte_writeBytes_congr hp (.inl ?_)) _ _ _ _
    have := slice_length hd
    simp only [List.length_append, List.length_cons, List.length_nil]
    omega
  | frmBuildResend =>
    exact endAlike_sealFrame (alike_writeBytes same _ _ _)
      (fun j _ => byte_writeBytes_congr hp (.inr (hb _ (by simp [readSet]) j))) _ _ _ _
  | frmReconstruct =>
    have hr : Buf.fbuf ∈ readSet .frmReconstruct := by simp [readSet]
    exact one hr fun j => one hr fun fl =>
      endAlike_copyRange hp (hb _ hr) fun u u' hu => endAlike_finish hu _ _ _ _

/-- Settles O15: runs that end alike fault with one fault or complete with one STATUS, on buffers that are alike. -/
theorem resultDependsOnlyOnTheReadSet : Obligations.ResultDependsOnlyOnTheReadSet := by
  intro i s s' hp hb
  have h := exec_endAlike i hp hb
  refine ⟨fun f hf => ?_, fun t ht => ?_⟩
  · rw [hf] at h
    generalize exec i s' = r at h
    cases h with
    | fault hu => exact ⟨_, rfl, hu.byte⟩
  · rw [ht] at h
    generalize exec i s' = r at h
    cases h with
    | next hst hu => exact ⟨_, rfl, hst, hu.byte⟩

end Sys2Proof.Machine

/-! PROOFS of the statements about memory and faults (spec/20_memory.md): the faults a command can raise, and the accesses
of the host that the window does not admit. -/

namespace Sys2Proof.Machine

variable {s : State} {b : Buf} {o n : Nat} {f : Fault} {P : Fault → Prop}

/-! ### The faults of a command

A read that stays inside its buffer faults at an unwritten byte alone (R26), so a command overruns only where its rule reads
past a buffer (R52), which is FRM_BUILD's slice (R144). -/

/-- The fault is UnwrittenRead, in whatever state. -/
def IsUnwrittenRead (f : Fault) : Prop := ∃ u, f = .unwrittenRead u

/-- The result is no refusal, and when it is a fault it is one that `P` allows. -/
def OnlyFaults (P : Fault → Prop) (r : Result) : Prop := (∀ x, r ≠ .refused x) ∧ ∀ f, r = .fault f → P f

theorem onlyFaults_finish (s : State) (ok more : Bool) (e : ErrCode) (v : Byte) : OnlyFaults P (s.finish ok more e v) :=
  ⟨nofun, nofun⟩

theorem onlyFaults_ite {p : Prop} [Decidable p] {x y : Result} (hx : p → OnlyFaults P x) (hy : ¬p → OnlyFaults P y) :
    OnlyFaults P (if p then x else y) := by
  split
  · exact hx ‹_›
  · exact hy ‹_›

/-- Going on after a read faults as the read does or as what follows does. -/
theorem onlyFaults_orFault {α : Type} {r : Except Fault α} {k : α → Result} (hr : ∀ f, r = .error f → P f)
    (hk : ∀ a, r = .ok a → OnlyFaults P (k a)) : OnlyFaults P (orFault r k) := by
  cases r with
  | error f => exact ⟨nofun, fun g hg => by cases hg; exact hr f rfl⟩
  | ok a => exact hk a rfl

theorem memRead_error_inside (ho : o < s.size b) (h : s.memRead b o = .error f) : IsUnwrittenRead f := by
  obtain ⟨-, ⟨-, rfl⟩ | ⟨hout, -⟩⟩ := memRead_error h
  · exact ⟨_, rfl⟩
  · omega

theorem crc8_error_inside (hn : o + n ≤ s.size b) (h : s.crc8 b o n = .error f) : IsUnwrittenRead f := by
  obtain ⟨k, hk, -, ⟨-, rfl⟩ | ⟨hout, -⟩⟩ := readRange_error (crc8_error h)
  · exact ⟨_, rfl⟩
  · omega

/-- Sealing a frame reads FBUF up to its CRC byte. -/
theorem sealFrame_error (h : s.sealFrame = .error f) : IsUnwrittenRead f := by
  rw [sealFrame_eq] at h
  split at h
  · next hc =>
    cases h
    refine crc8_error_inside ?_ hc
    rw [writeBytes_size, size_fbuf]
    rcases frameSize_cases s.params with ⟨-, h₁, h₂⟩ | ⟨-, h₁, h₂⟩ <;> omega
  · cases h

/-- Copying a range that lies inside the buffer it is read from. -/
theorem copyRange_error_inside {b' : Buf} {o' : Nat} (hb : b ≠ b') (hn : o + n ≤ s.size b)
    (h : s.copyRange b o b' o' n = .error f) : IsUnwrittenRead f := by
  obtain ⟨vs, -, -, hc⟩ | ⟨vs, hl, -, -, hc⟩ := copyRange_cases (s := s) hb o o' n
  · cases hc.symm.trans h
  · rw [if_pos (by omega)] at hc
    cases hc.symm.trans h
    exact ⟨_, rfl⟩

/-- A slice overruns PBUF only at a byte below the length byte and at offset 64 or more, 15 at most after the slice's
first (R144). -/
theorem slice_error {i l : Byte} (h : s.slice i l = .error f) :
    IsUnwrittenRead f ∨ f = .frameSourceOverrun s ∧ 64 < l.toNat ∧ 4 ≤ i.toNat := by
  unfold State.slice at h
  split at h
  · next hr =>
    cases h
    obtain ⟨k, hk, -, ⟨-, rfl⟩ | ⟨hout, rfl⟩⟩ := readRange_error hr
    · exact .inl ⟨_, rfl⟩
    · simp only [sliceCount, sliceOffset, frmPayloadLen, size_pbuf] at hk hout
      exact .inr ⟨rfl, by omega, by omega⟩
  · cases h

/-- The faults the spec gives the command `i` in state `s` (R26, R144, R173). -/
def StatedFault (i : Instr) (s : State) (f : Fault) : Prop :=
  IsUnwrittenRead f
    ∨ (∃ u, f = .frameSourceOverrun u)
      ∧ ∃ fl ix l, i = .frmBuild fl ix ∧ s.byte .pbuf 3 = some l ∧ 64 < l.toNat ∧ 4 ≤ ix.toNat

theorem onlyFaults_sealFrame (hP : ∀ f, IsUnwrittenRead f → P f) (s : State) (ok more : Bool) (e : ErrCode) (v : Byte) :
    OnlyFaults P (orFault s.sealFrame fun u => u.finish ok more e v) :=
  onlyFaults_orFault (fun f hf => hP f (sealFrame_error hf)) fun u _ => onlyFaults_finish u _ _ _ _

/-- Every read of a command but FRM_BUILD's slice stays inside its buffer. -/
theorem exec_onlyFaults (i : Instr) (s : State) : OnlyFaults (StatedFault i s) (exec i s) := by
  have finish (u ok more e v) : OnlyFaults (StatedFault i s) (State.finish u ok more e v) := onlyFaults_finish _ _ _ _ _
  have failure (u e) : OnlyFaults (StatedFault i s) (State.fail u e) := finish u _ _ _ _
  have read {b o} {k : Byte → Result} (ho : o < s.size b)
      (hk : ∀ v, s.byte b o = some v → OnlyFaults (StatedFault i s) (k v)) :
      OnlyFaults (StatedFault i s) (orFault (s.memRead b o) k) :=
    onlyFaults_orFault (fun _ hf => .inl (memRead_error_inside ho hf)) fun v hv => hk v (memRead_ok_iff.1 hv)
  have crc {u : State} {b o n} {k : Byte → Result} (hn : o + n ≤ u.size b)
      (hk : ∀ v, OnlyFaults (StatedFault i s) (k v)) : OnlyFaults (StatedFault i s) (orFault (u.crc8 b o n) k) :=
    onlyFaults_orFault (fun _ hf => .inl (crc8_error_inside hn hf)) fun v _ => hk v
  have pbuf {o} (ho : o < 64) : o < s.size .pbuf := ho
  have fbuf {o} (ho : o < 20) : o < s.size .fbuf := ho.trans_le (frameSize_le s.params).1
  cases i with
  | crc8 start len sel => exact onlyFaults_ite (fun _ => failure _ _) fun hn => crc (by omega) fun v => finish _ _ _ _ v
  | pktConstruct type flags size =>
    refine onlyFaults_ite (fun _ => failure _ _) fun hn => crc ?_ fun c => finish _ _ _ _ _
    simp only [maxPayload, maxTotal, pktHeaderSize, pktFooterSize] at hn
    rw [writeBytes_size, size_pbuf, pktHeaderSize]
    omega
  | pktValidate =>
    refine read (pbuf (by decide)) fun m _ => onlyFaults_ite (fun _ => failure _ _) fun _ =>
      read (pbuf (by decide)) fun l _ => onlyFaults_ite (fun _ => failure _ _) fun hl =>
      crc ?_ fun c => onlyFaults_ite (fun _ => failure _ _) fun _ => finish _ _ _ _ _
    simp only [maxTotal] at hl
    rw [size_pbuf]
    omega
  | pktGetType => exact read (pbuf (by decide)) fun v _ => finish _ _ _ _ v
  | pktGetFlags => exact read (pbuf (by decide)) fun v _ => finish _ _ _ _ v
  | pktGetPayloadSize => exact read (pbuf (by decide)) fun l _ => finish _ _ _ _ _
  | frmValidate =>
    have last : OnlyFaults (StatedFault .frmValidate s) (checkFrameCrc s) :=
      crc (by simp) fun c => onlyFaults_ite (fun _ => failure _ _) fun _ => finish _ _ _ _ _
    refine read (fbuf (by decide)) fun m _ => onlyFaults_ite (fun _ => failure _ _) fun _ =>
      read (fbuf (by decide)) fun j _ => onlyFaults_ite (fun _ => failure _ _) fun _ => ?_
    cases s.params.footerRev with
    | tagged => exact read (fbuf (by decide)) fun fm _ => onlyFaults_ite (fun _ => failure _ _) fun _ => last
    | plain => exact last
  | frmIsResend => exact read (fbuf (by decide)) fun fl _ => finish _ _ _ _ _
  | frmGetIndex => exact read (fbuf (by decide)) fun v _ => finish _ _ _ _ v
  | frmBuild flags index =>
    refine read (pbuf (by decide)) fun l hl => onlyFaults_ite (fun _ => finish _ _ _ _ _) fun _ =>
      onlyFaults_orFault (fun f hf => ?_) fun d _ => onlyFaults_sealFrame (fun _ => .inl) _ _ _ _ _
    obtain hu | ⟨rfl, hlen, hix⟩ := slice_error hf
    · exact .inl hu
    · exact .inr ⟨⟨s, rfl⟩, flags, index, l, rfl, hl, hlen, hix⟩
  | frmBuildResend => exact onlyFaults_sealFrame (fun _ => .inl) _ _ _ _ _
  | frmReconstruct =>
    refine read (fbuf (by decide)) fun j _ => read (fbuf (by decide)) fun fl _ =>
      onlyFaults_orFault (fun f hf => .inl (copyRange_error_inside (by decide) ?_ hf)) fun u _ => finish _ _ _ _ _
    have := (frameSize_le s.params).1
    rw [size_fbuf]
    simp only [sliceCount, frmPayloadOffset, frmHeaderSize, frmPayloadLen]
    omega

/-- Settles O12: only FRM_BUILD's slice can leave its buffer, and only with such a length byte and index. -/
theorem engineFaultsAreTheStatedOnes : Obligations.EngineFaultsAreTheStatedOnes := exec_onlyFaults

/-! ### Accesses that are not admitted -/

/-- The end of FBUF in the window, as R6 gives it. -/
theorem frameSize_eq_ite (p : Params) : p.frameSize = if p.footerRev = .tagged then 21 else 20 := by
  rcases frameSize_cases p with ⟨hf, hs, -⟩ | ⟨hf, hs, -⟩ <;> simp [hf, hs]

theorem admission_reserved {width : Nat} (h : regionAt s.params o = .reserved) :
    s.admission o width = .error (.reservedAccess s) := by
  rw [State.admission, h]

/-- A register takes 32 bits at its own offset (R43). -/
theorem admission_register {width : Nat} (h : o < 0x00C) (hw : ¬(width = 32 ∧ o % 4 = 0)) :
    s.admission o width = .error (.badAccess s) := by
  obtain hr | hr | hr := regionAt_register (p := s.params) h <;> simp only [State.admission, hr, if_neg hw]

/-- A buffer takes 8 bits (R43). -/
theorem admission_buffer {width : Nat} (h : 0x100 ≤ o ∧ o < 0x140 ∨ 0x180 ≤ o ∧ o < 0x180 + s.params.frameSize)
    (hw : width ≠ 8) : s.admission o width = .error (.badAccess s) := by
  obtain ⟨b, i, hr⟩ := regionAt_buffer h
  simp only [State.admission, hr, if_neg hw]

/-- A fault of the admission replaces the access (R174). -/
theorem step_not_admitted {a : Access} {ts : List Turn} (h : s.turns = .host a :: ts) (ha : a.addr = s.params.base + o)
    (ho : o < 0x200) (hf : State.admission { s with turns := ts } o a.width = .error f) : step s = .fault f := by
  rw [step_cons h, takeTurn, hostAccess, ha, windowOffset_base ho]
  exact orFault_of_error hf

/-- Settles O28: the window map has no region at such an offset, and the admission asks for no width there. -/
theorem reservedOffsetsFault : Obligations.ReservedOffsetsFault := by
  intro s a ts off h ha hoff
  rw [← frameSize_eq_ite] at hoff
  have hreg : regionAt s.params off = .reserved := regionAt_reserved (by omega)
  exact step_not_admitted h ha (by omega) (admission_reserved (s := { s with turns := ts }) hreg)

/-- An access is admitted or not by its first byte: a register or a buffer there faults whatever else is reached. -/
theorem step_badAccess {a : Access} {ts : List Turn} (h : s.turns = .host a :: ts) (ha : a.addr = s.params.base + o)
    (hoff : o < 0x00C ∧ ¬(a.width = 32 ∧ o % 4 = 0)
      ∨ (0x100 ≤ o ∧ o < 0x140 ∨ 0x180 ≤ o ∧ o < 0x180 + s.params.frameSize) ∧ a.width ≠ 8) :
    step s = .fault (.badAccess { s with turns := ts }) := by
  have hle := (frameSize_le s.params).2
  obtain ⟨hreg, hw⟩ | ⟨hbuf, hw⟩ := hoff
  · exact step_not_admitted h ha (by omega) (admission_register hreg hw)
  · exact step_not_admitted h ha (by omega) (admission_buffer hbuf hw)

/-- Settles O29: the access begins in a register or a buffer, which is all the admission looks at. -/
theorem wrongWidthOrAlignmentFaults : Obligations.WrongWidthOrAlignmentFaults := by
  intro s a ts off h ha hoff
  rw [← frameSize_eq_ite] at hoff
  exact step_badAccess h ha (by omega)

end Sys2Proof.Machine

/-! PROOFS of the statements about the encoding (spec/30_encoding.md): the decoder and the encoder agree, what a command
does not read does not matter, the unassigned opcodes, and the validity of a frame. -/

namespace Sys2Proof

variable {w x : Word} {i : Instr} {r : OpcodeRow}

/-! ### A command's row of the opcode map -/

/-- The bits of a word the command reads (R62, R64). -/
def usedBits : Instr → Word
  | .crc8 _ _ _ => packWord 0xFF#8 0xFF#8 0xFF#8 0x01#8
  | .pktConstruct _ _ _ => packWord 0xFF#8 0xFF#8 0xFF#8 0xFF#8
  | .frmBuild _ _ => packWord 0xFF#8 0xFF#8 0xFF#8 0x00#8
  | .pktValidate | .pktGetType | .pktGetFlags | .pktGetPayloadSize | .frmValidate | .frmIsResend | .frmGetIndex
  | .frmBuildResend | .frmReconstruct => packWord 0xFF#8 0x00#8 0x00#8 0x00#8

/-- The row of a command in the opcode map (R62). -/
def rowOf (i : Instr) : OpcodeRow := ⟨Laws.EncodesItsRow.opOf i, usedBits i⟩

theorem opcodeRowOf_congr (h : opField x = opField w) : opcodeRowOf x = opcodeRowOf w := by
  rw [opcodeRowOf_eq, opcodeRowOf_eq, h]

/-- The OP of a command finds the command's row. -/
theorem opcodeRowOf_of_opField (h : opField w = Laws.EncodesItsRow.opOf i) : opcodeRowOf w = some (rowOf i) := by
  rw [opcodeRowOf_eq, h]
  cases i <;> rfl

theorem opField_encode (i : Instr) : opField (encode i) = Laws.EncodesItsRow.opOf i := by
  cases i <;> exact opField_packWord _ _ _ _

theorem opcodeRowOf_encode (i : Instr) : opcodeRowOf (encode i) = some (rowOf i) :=
  opcodeRowOf_of_opField (opField_encode i)

/-- Masking a word whose OP is read masks the three operand fields. -/
theorem and_packWord (w : Word) (a b c : Byte) :
    w &&& packWord 0xFF#8 a b c = packWord (opField w) (aField w &&& a) (bField w &&& b) (cField w &&& c) := by
  conv_lhs => rw [← packWord_fields w, packWord_and]
  rw [show (0xFF#8 : Byte) = BitVec.allOnes 8 from rfl, BitVec.and_allOnes]

/-- SEL is bit 0 of field C, and CRC8 ignores the bits above it (R63, R64). -/
theorem selByte_selField (w : Word) : selByte (selField w) = cField w &&& 0x01#8 := by
  rw [selField_eq]
  generalize cField w = c
  revert c
  decide

/-! ### Decoding -/

/-- What the decoder reads: the OP is the command's, and the operands are the word's bits that the command uses. -/
theorem opField_and_encode_of_decodeWord (h : decodeWord w = .ok i) :
    opField w = Laws.EncodesItsRow.opOf i ∧ encode i = w &&& usedBits i := by
  have ones (y : Byte) : y &&& 0xFF#8 = y := BitVec.and_allOnes
  have hval : opField w = BitVec.ofNat 8 (opField w).toNat := by simp
  unfold decodeWord at h
  split at h
  case h_13 => cases h
  all_goals
    rename_i hop
    rw [hop] at hval
    cases h
    refine ⟨hval, ?_⟩
    rw [usedBits, and_packWord, hval]
    simp only [encode, selByte_selField, ones, BitVec.and_zero]

/-- A decoded word carries its command's row. -/
theorem opcodeRowOf_of_decodeWord (h : decodeWord w = .ok i) : opcodeRowOf w = some (rowOf i) :=
  opcodeRowOf_of_opField (opField_and_encode_of_decodeWord h).1

/-- The one way the decoder rejects a word: by its OP (R65). -/
theorem decodeWord_error {e : DecodeReject} (h : decodeWord w = .error e) : e = .unassignedOpcode (opField w) := by
  unfold decodeWord at h
  split at h
  case h_13 => cases h; rfl
  all_goals cases h

/-- A word whose OP is in the opcode map decodes to a command of that row. -/
theorem decodeWord_of_opcodeRowOf (h : opcodeRowOf w = some r) : ∃ i, decodeWord w = .ok i ∧ rowOf i = r := by
  have hrow : ∀ r ∈ opcodeRows, ∀ a b c : Byte, ∃ i, decodeWord (packWord r.op a b c) = .ok i := by
    simp [opcodeRows, decodeWord]
  rw [opcodeRowOf_eq] at h
  have hop : r.op = opField w := by simpa using List.find?_some h
  obtain ⟨i, hi⟩ := hrow r (List.mem_of_find?_eq_some h) (aField w) (bField w) (cField w)
  rw [hop, packWord_fields] at hi
  exact ⟨i, hi, Option.some.inj ((opcodeRowOf_of_decodeWord hi).symm.trans h)⟩

/-- The words with an unassigned OP are the rejected ones (R65). -/
theorem wordOpAssigned_eq_false_iff :
    wordOpAssigned w = false ↔ decodeWord w = .error (.unassignedOpcode (opField w)) := by
  constructor
  · intro hw
    cases hd : decodeWord w with
    | ok i => simp [Machine.wordOpAssigned_of_decodeWord hd] at hw
    | error e => rw [decodeWord_error hd]
  · intro hd
    rw [wordOpAssigned, Option.isSome_eq_false_iff, Option.isNone_iff_eq_none, Option.eq_none_iff_forall_ne_some]
    intro r hr
    obtain ⟨i, hi, -⟩ := decodeWord_of_opcodeRowOf hr
    simp [hd] at hi

/-- Every command reads the OP field. -/
theorem opField_and_used (h : r ∈ opcodeRows) (w : Word) : opField (w &&& r.used) = opField w := by
  have hones : ∀ r ∈ opcodeRows, opField r.used = BitVec.allOnes 8 := by decide
  have hand : opField (w &&& r.used) = opField w &&& opField r.used := BitVec.extractLsb'_and
  rw [hand, hones r h, BitVec.and_allOnes]

/-- Settles O2: the decoder reads back the packed fields, so encoding what it reads is masking, which clears nothing. -/
theorem decodeOfEncodeIsTheCommand : Obligations.DecodeOfEncodeIsTheCommand := by
  intro i
  have hdec := Machine.decodeWord_encode i
  have hzero : encode i &&& usedBits i = encode i := (opField_and_encode_of_decodeWord hdec).2.symm
  refine ⟨hdec, ?_⟩
  rw [wellFormedWord, wordOpAssigned, wordIgnoredZero, opcodeRowOf_encode]
  simpa [rowOf] using hzero

/-- Settles O3: the row is the command's, and the encoder packs the fields the decoder read. -/
theorem encodeOfDecodeKeepsTheUsedBits : Obligations.EncodeOfDecodeKeepsTheUsedBits := fun _ i h =>
  ⟨rowOf i, opcodeRowOf_of_decodeWord h, (opField_and_encode_of_decodeWord h).2⟩

/-- Settles O4: both words decode, being of one row, and to commands with one encoding, which are the same command. -/
theorem ignoredBitsDoNotChangeTheCommand : Obligations.IgnoredBitsDoNotChangeTheCommand := by
  intro w x r hw hx
  have hop : opField x = opField w := by
    have hr : r ∈ opcodeRows := List.mem_of_find?_eq_some hw
    rw [← opField_and_used hr x, hx, opField_and_used hr]
  obtain ⟨i, hi, rfl⟩ := decodeWord_of_opcodeRowOf hw
  obtain ⟨j, hj, hji⟩ := decodeWord_of_opcodeRowOf ((opcodeRowOf_congr hop).trans hw)
  have henc : encode j = encode i := by
    rw [(opField_and_encode_of_decodeWord hi).2, (opField_and_encode_of_decodeWord hj).2]
    exact (congrArg (x &&& ·.used) hji).trans hx
  rw [← Machine.decodeWord_encode j, henc, Machine.decodeWord_encode] at hj
  rw [hi, hj]

/-- Settles O5: OP alone decides, and the engine completes a rejected word as illegal. -/
theorem unassignedOpcodesAreIllegal : Obligations.UnassignedOpcodesAreIllegal := by
  refine ⟨by decide +kernel, rfl, fun w => ?_, fun w => wordOpAssigned_eq_false_iff, fun s hb hw => ?_⟩
  · have hop : opField w = opField (BitVec.ofNat 32 (w.toNat % 256)) := by
      apply BitVec.eq_of_toNat_eq
      simp [opField]
    rw [wordOpAssigned, wordOpAssigned, opcodeRowOf_congr hop]
  · exact ⟨Machine.engineTurn_unassigned hb hw,
      fun hturn => (Machine.stepRunsTheDecodedCommand s hb (.inr hturn)).2 hw⟩

/-- Settles O1: the decoder is run on each word. -/
theorem commandWordsDecode : Obligations.CommandWordsDecode := by
  unfold Obligations.CommandWordsDecode
  decide

end Sys2Proof

namespace Sys2Proof.Machine

variable {s : State} {b : Buf} {o : Nat} {P Q : Prop}

/-! ### The validity of a frame -/

/-- If the result is a completion, it has OK = 1 exactly when `P` holds. -/
def OkIff (P : Prop) (r : Result) : Prop := ∀ t, r = .next t → (t.status.ok = true ↔ P)

theorem okIff_success (s : State) (more : Bool) (v : Byte) : OkIff True (s.finish true more .none v) := by
  intro t h
  rw [finish_next h]
  simp [Status.finished]

/-- A check that fails the command. -/
theorem okIff_check {c : Prop} [Decidable c] {e : ErrCode} {r : Result} (h : OkIff P r) :
    OkIff (¬c ∧ P) (if c then s.fail e else r) := by
  intro t ht
  split at ht
  · next hc =>
    rw [finish_next ht]
    simp [Status.finished, hc]
  · next hc => simpa [hc] using h t ht

/-- A read whose value the rest goes on with. -/
theorem okIff_orFault {α : Type} {r : Except Fault α} {k : α → Result} {P : α → Prop} (h : ∀ a, OkIff (P a) (k a)) :
    OkIff (∃ a, r = .ok a ∧ P a) (orFault r k) := by
  intro t ht
  obtain ⟨a, rfl, hk⟩ := orFault_next ht
  simpa using h a t hk

theorem okIff_memRead {k : Byte → Result} {P : Byte → Prop} (h : ∀ v, OkIff (P v) (k v)) :
    OkIff (∃ v, s.byte b o = some v ∧ P v) (orFault (s.memRead b o) k) := by
  simpa only [memRead_ok_iff] using okIff_orFault (r := s.memRead b o) h

theorem okIff_congr {r : Result} (h : OkIff P r) (hpq : P ↔ Q) : OkIff Q r := fun t ht => (h t ht).trans hpq

/-- The last check passes exactly when the CRC over the whole frame is zero (R127). -/
theorem okIff_checkFrameCrc (s : State) : OkIff (s.crc8 .fbuf 0 s.params.frameSize = .ok 0#8) (checkFrameCrc s) :=
  okIff_congr (okIff_orFault fun _ => okIff_check (okIff_success s false 0#8)) (by simp)

/-- A valid frame by the bytes that FRM_VALIDATE reads (R80). -/
theorem validFrame_iff :
    s.ValidFrame ↔ s.byte .fbuf 0 = some 0xAE#8 ∧ (∃ i, s.byte .fbuf 1 = some i ∧ i.toNat < 4)
      ∧ (s.params.footerRev = .tagged → s.byte .fbuf 19 = some 0xAF#8)
      ∧ s.crc8 .fbuf 0 s.params.frameSize = .ok 0#8 := by
  have hbyte {bs : List Byte} (hl : bs.length = s.params.frameSize) (hs : s.Holds .fbuf 0 bs) {k : Nat} (hk : k < 20) :
      s.byte .fbuf k = bs[k]? := by
    have := hs k (by have := frameSize_le s.params; omega)
    rwa [Nat.zero_add] at this
  rw [crc8_ok_iff]
  constructor
  · rintro ⟨bs, hs, hl, hm, hi, hf, hc⟩
    rw [hbyte hl hs (by decide), hbyte hl hs (by decide), hbyte hl hs (by decide)]
    exact ⟨hm, hi, hf, bs, hl, hs, hc⟩
  · rintro ⟨hm, hi, hf, bs, hl, hs, hc⟩
    rw [hbyte hl hs (by decide)] at hm hi hf
    exact ⟨bs, hs, hl, hm, hi, hf, hc⟩

/-- The checks of FRM_VALIDATE are the conditions of R80: header magic, index, footer magic when TAGGED, CRC. -/
theorem okIff_frmValidate (s : State) : OkIff s.ValidFrame (exec .frmValidate s) := by
  have last := okIff_checkFrameCrc s
  refine okIff_congr (okIff_memRead fun m => okIff_check <| okIff_memRead fun i => okIff_check
    (P := (s.params.footerRev = .tagged → s.byte .fbuf 19 = some 0xAF#8)
      ∧ s.crc8 .fbuf 0 s.params.frameSize = .ok 0#8) ?_) ?_
  · cases hf : s.params.footerRev with
    | tagged =>
      exact okIff_congr (okIff_memRead (o := footerMagicOffset) fun fm => okIff_check last)
        (by simp [footerMagicOffset, frmHeaderSize, frmPayloadLen, frmFooterMagic])
    | plain => simpa using last
  · rw [validFrame_iff]
    constructor
    · rintro ⟨m, hm, hmagic, i, hi, hlt, hrest⟩
      obtain rfl : m = frmMagic := not_not.1 hmagic
      exact ⟨hm, ⟨i, hi, Nat.not_le.1 hlt⟩, hrest⟩
    · rintro ⟨hm, ⟨i, hi, hlt⟩, hrest⟩
      exact ⟨frmMagic, hm, not_not.2 rfl, i, hi, Nat.not_le.2 hlt, hrest⟩

/-- Settles O47: OK is the conjunction of the checks, and FRM_VALIDATE has no write set. -/
theorem frmValidateDecidesValidity : Obligations.FrmValidateDecidesValidity := fun s t h =>
  ⟨okIff_frmValidate s t h, exec_cells_of_not_mem_writeSet (b := .pbuf) h (by simp [writeSet]),
    exec_cells_of_not_mem_writeSet (b := .fbuf) h (by simp [writeSet])⟩

end Sys2Proof.Machine

/-! PROOFS of the statements about the CRC (spec/40_crc.md): a unit with its own CRC appended, the CRC of a unit with one
byte changed and what the two validators make of such a unit, and the CRC8 command. -/

namespace Sys2Proof.Machine

variable {s : State} {b : Buf} {o k : Nat} {v : Byte} {p : Params} {bs d : List Byte}

/-! ### A unit with its CRC -/

/-- Appending the CRC brings the running value to `T(c xor c) = T(0)` (R100). -/
theorem crcOf_append_crcOf (h : p.crcZero = true) (bs : List Byte) : crcOf p (bs ++ [crcOf p bs]) = 0#8 := by
  rw [crcOf_append, crcRun_cons, crcRun_nil, BitVec.xor_self, crcT_zero h]

/-- Settles O37: the bytes read are the unit, so the byte after them is its CRC. -/
theorem crcOfAUnitWithItsCrcIsZero : Obligations.CrcOfAUnitWithItsCrcIsZero := by
  intro s b o d c hz hc hb hd
  obtain ⟨bs, hl, hbs, rfl⟩ := crc8_ok_iff.1 hc
  obtain rfl : bs = d := holds_unique hbs hd hl
  have hall : s.Holds b o (bs ++ [crcOf s.params bs]) := holds_append.2 ⟨hd, holds_cons.2 ⟨hb, holds_nil _ _ _⟩⟩
  rw [crc8_ok (by simp) hall, crcOf_append_crcOf hz]

/-! ### One byte changed -/

/-- Running over one byte keeps a difference, because the xor with the byte cancels and `T` is injective (R101). -/
theorem crcT_xor_injective (hT : CrcInjective p) (x : Byte) : Function.Injective fun r => crcT p (r ^^^ x) :=
  fun _ _ h => (BitVec.xor_left_inj x).1 (hT _ _ h)

/-- A difference in the running value stays to the end (R101). -/
theorem crcRun_injective (hT : CrcInjective p) (bs : List Byte) : Function.Injective fun r => crcRun p r bs := by
  induction bs with
  | nil => exact Function.injective_id
  | cons x bs ih => exact ih.comp (crcT_xor_injective hT x)

/-- Settles O38: the running values differ after the changed byte and so at the end. -/
theorem changingOneByteChangesTheCrc : Obligations.ChangingOneByteChangesTheCrc := by
  intro p xs ys x y hT hxy h
  simp only [crcOf_append, crcRun_cons] at h
  exact hxy ((BitVec.xor_right_inj _).1 (hT _ _ (crcRun_injective hT ys h)))

/-- A unit whose CRC is zero has another CRC once one byte is changed (R101). -/
theorem crcOf_set_ne_zero (hT : CrcInjective p) (hd : crcOf p d = 0#8) (hk : k < d.length) (hv : d[k]? ≠ some v) :
    crcOf p (d.set k v) ≠ 0#8 := by
  have hne : d[k] ≠ v := fun h => hv (by rw [List.getElem?_eq_getElem hk, h])
  have hold : d = d.take k ++ d[k] :: d.drop (k + 1) := by simp
  have hcrc := changingOneByteChangesTheCrc p (d.take k) (d.drop (k + 1)) _ _ hT hne
  rw [← hold, hd] at hcrc
  rw [List.set_eq_take_append_cons_drop, if_pos hk]
  exact hcrc.symm

/-! ### Rejection by a validator -/

/-- The command completes with OK = 0. -/
def Rejects (r : Result) : Prop := ∃ t, r = .next t ∧ t.status.ok = false

theorem rejects_fail (s : State) (e : ErrCode) : Rejects (s.fail e) := ⟨_, rfl, rfl⟩

/-- A failing check rejects, so only the checks after it are left. -/
theorem rejects_check {c : Prop} [Decidable c] {e : ErrCode} {r : Result} (h : ¬c → Rejects r) :
    Rejects (if c then s.fail e else r) := by
  split
  · exact rejects_fail s e
  · exact h ‹_›

/-- Reading a held byte goes on with that byte. -/
theorem rejects_memRead {r : Byte → Result} (hs : s.Holds b 0 bs) (hk : k < bs.length) (h : Rejects (r bs[k])) :
    Rejects (orFault (s.memRead b k) r) := by
  have hb : s.byte b k = some bs[k] := by simpa [hk] using hs k hk
  rwa [memRead_of_byte hb]

/-- The last check of both validators rejects a unit whose CRC is not zero (R111, R127). -/
theorem rejects_crc8 {n : Nat} {r : Result} (hs : s.Holds b 0 bs) (hn : bs.length = n) (hc : crcOf s.params bs ≠ 0#8) :
    Rejects (orFault (s.crc8 b 0 n) fun c => if c ≠ 0#8 then s.fail .crc else r) := by
  rw [crc8_ok hn hs, orFault_ok, if_pos hc]
  exact rejects_fail s .crc

/-- PKT_VALIDATE rejects a packet of admitted length whose CRC is not zero (R111). -/
theorem rejects_pktValidate (hs : s.Holds .pbuf 0 bs) (h5 : 5 ≤ bs.length) (h64 : bs.length ≤ 64)
    (h3 : bs[3]? = some (BitVec.ofNat 8 bs.length)) (hc : crcOf s.params bs ≠ 0#8) : Rejects (exec .pktValidate s) := by
  have hlen : bs.length = (bs[3]).toNat := by
    rw [(List.getElem?_eq_some_iff.1 h3).2, BitVec.toNat_ofNat]
    omega
  exact rejects_memRead hs (by omega) <| rejects_check fun _ => rejects_memRead hs (by omega) <| rejects_check fun _ =>
    rejects_crc8 hs hlen hc

/-- FRM_VALIDATE rejects a frame whose CRC is not zero (R127). -/
theorem rejects_frmValidate (hs : s.Holds .fbuf 0 bs) (hl : bs.length = s.params.frameSize)
    (hc : crcOf s.params bs ≠ 0#8) : Rejects (exec .frmValidate s) := by
  have hcrc : Rejects (checkFrameCrc s) := rejects_crc8 hs hl hc
  have h20 : 20 ≤ bs.length := hl ▸ (frameSize_le s.params).1
  refine rejects_memRead hs (by omega) <| rejects_check fun _ => rejects_memRead hs (by omega) <| rejects_check fun _ => ?_
  cases s.params.footerRev with
  | tagged => exact rejects_memRead (k := 19) hs (by omega) <| rejects_check fun _ => hcrc
  | plain => exact hcrc

/-- Settles O45: the length byte still tells the length, and the CRC is no longer zero. -/
theorem changedPacketByteIsRejected : Obligations.ChangedPacketByteIsRejected := by
  intro s d k v hT hvalid hk h3 hv hs
  obtain ⟨-, hlen, h5, h64, hcrc⟩ := hvalid
  refine rejects_pktValidate hs ?_ ?_ ?_ (crcOf_set_ne_zero hT hcrc hk hv)
  · rwa [List.length_set]
  · rwa [List.length_set]
  · rwa [List.length_set, List.getElem?_set_ne h3]

/-- Settles O49: the length of a frame is the instance's, and the CRC is no longer zero. -/
theorem changedFrameByteIsRejected : Obligations.ChangedFrameByteIsRejected := by
  intro s d k v hT hvalid hk hv hs
  obtain ⟨hlen, -, -, -, hcrc⟩ := hvalid
  exact rejects_frmValidate hs (List.length_set.trans hlen) (crcOf_set_ne_zero hT hcrc hk hv)

/-! ### The CRC8 command -/

/-- CRC8 reads SEL from bit 0 of field C and ignores the bits above it (R62, R64). -/
theorem decodeWord_crc8 {start len c : Byte} {sel : Buf} (h : c.getLsbD 0 = decide (sel = .fbuf)) :
    decodeWord (packWord 0x01#8 start len c) = .ok (.crc8 start len sel) := by
  have hsel : selField (packWord 0x01#8 start len c) = sel := by
    rw [selField_eq, cField_packWord, h]
    cases sel <;> rfl
  simp [decodeWord, hsel]

theorem size_eq_ite (s : State) (b : Buf) : s.size b = if b = .pbuf then 64 else s.params.frameSize := by
  cases b <;> rfl

/-- A range past the end of the buffer is not read (R102). -/
theorem exec_crc8_of_size_lt {start len : Byte} {sel : Buf} (h : s.size sel < start.toNat + len.toNat) :
    exec (.crc8 start len sel) s = s.fail .range := if_pos h

/-- A range inside the buffer is read whole (R102). -/
theorem exec_crc8_of_le_size {start len : Byte} {sel : Buf} (h : start.toNat + len.toNat ≤ s.size sel) :
    exec (.crc8 start len sel) s =
      orFault (s.crc8 sel start.toNat len.toNat) fun v => s.finish true false .none v := if_neg (Nat.not_lt.2 h)

/-- Settles O39: the range lies in the buffer or not, and inside it the bytes are all written or one is not. -/
theorem crc8Command : Obligations.Crc8Command := by
  intro s start len sel
  rw [← size_eq_ite]
  refine ⟨fun c hc => decodeWord_crc8 hc, fun h => exec_crc8_of_size_lt h, fun d h hl hd => ?_, fun h => ?_⟩
  · rw [exec_crc8_of_le_size h, crc8_ok hl hd]
    rfl
  · rw [exec_crc8_of_le_size h.1]
    exact orFault_of_error (crc8_unwritten h)

end Sys2Proof.Machine

/-! PROOFS of the statements about the packet codec (spec/41_packet_codec.md): the two commands that make and check a
packet, the validity they agree on, and the accessors of its header fields. -/

namespace Sys2Proof.Machine

variable {s : State} {b : Buf} {o : Nat} {v l type flags size : Byte} {p : Params} {vs ws payload d : List Byte}

/-! ### Encodings -/

/-- A command without operands is decoded from its OP, whatever the operand fields hold (R62, R64). -/
theorem decodeWord_packWord_of_opOnly {i : Instr} (hi : usedBits i = packWord 0xFF#8 0x00#8 0x00#8 0x00#8)
    (x y z : Byte) : decodeWord (packWord (Laws.EncodesItsRow.opOf i) x y z) = .ok i := by
  have hmask : packWord (Laws.EncodesItsRow.opOf i) x y z &&& usedBits i = encode i &&& usedBits i := by
    rw [hi, and_packWord, and_packWord, opField_packWord, opField_encode]
    simp only [BitVec.and_zero]
  exact (ignoredBitsDoNotChangeTheCommand _ _ _ (opcodeRowOf_encode i) hmask).trans (decodeWord_encode i)

/-! ### Going on after a read -/

/-- A written byte is read. -/
theorem orFault_memRead_of_byte {k : Byte → Result} (h : s.byte b o = some v) : orFault (s.memRead b o) k = k v := by
  rw [memRead_of_byte h, orFault_ok]

/-- An unwritten byte ends the command (R26). -/
theorem orFault_memRead_unwritten {k : Byte → Result} (h : s.byte b o = none) (ho : o < s.size b) :
    orFault (s.memRead b o) k = .fault (.unwrittenRead s) := orFault_of_error (memRead_unwritten h ho)

/-! ### PKT_CONSTRUCT -/

/-- Bytes written before bytes that are held make one run of bytes. -/
theorem holds_writeBytes_append (h : o + vs.length ≤ s.size b) (hw : s.Holds b (o + vs.length) ws) :
    (s.writeBytes b o vs).Holds b o (vs ++ ws) :=
  holds_append.2 ⟨holds_writeBytes h, holds_congr (fun _ _ => byte_writeBytes_out (.inr (by omega))) hw⟩

/-- A byte written after bytes that are held makes one run of bytes. -/
theorem holds_memWrite_append (h : o + vs.length < s.size b) (hv : s.Holds b o vs) :
    (s.memWrite b (o + vs.length) v).Holds b o (vs ++ [v]) :=
  holds_append.2 ⟨holds_congr (fun _ _ => byte_memWrite_ne (by omega)) hv,
    holds_cons.2 ⟨byte_memWrite_same h, holds_nil _ _ _⟩⟩

/-- A size above MAX_PAYLOAD touches no buffer (R108). -/
theorem exec_pktConstruct_of_size_gt (h : 59 < size.toNat) :
    exec (.pktConstruct type flags size) s = .next { s with status := Status.failure 1#4 } := if_pos h

/-- The header of a packet of payload size `n` (R76). -/
def packetHeader (type flags : Byte) (n : Nat) : List Byte := [0xAC#8, type, flags, BitVec.ofNat 8 (n + 5)]

/-- A packet is its header, its payload and the CRC over both (R76). -/
theorem packetBytes_eq (p : Params) (type flags : Byte) (payload : List Byte) :
    packetBytes p type flags payload =
      packetHeader type flags payload.length ++ payload
        ++ [crcOf p (packetHeader type flags payload.length ++ payload)] := rfl

/-- What PKT_CONSTRUCT makes before it finishes: the header written, then the CRC of header and payload stored after the
payload (R108). -/
def State.constructed (s : State) (type flags : Byte) (payload : List Byte) : State :=
  (s.writeBytes .pbuf 0 (packetHeader type flags payload.length)).memWrite .pbuf (4 + payload.length)
    (crcOf s.params (packetHeader type flags payload.length ++ payload))

/-- The header lies before the payload. -/
theorem holds_packetHeader_append (hp : s.Holds .pbuf 4 payload) :
    (s.writeBytes .pbuf 0 (packetHeader type flags payload.length)).Holds .pbuf 0
      (packetHeader type flags payload.length ++ payload) :=
  holds_writeBytes_append (by simp [packetHeader]) hp

/-- A size of at most MAX_PAYLOAD: the header is written and the CRC taken over header and payload (R108). -/
theorem exec_pktConstruct_of_size_le (h : size.toNat ≤ 59) :
    exec (.pktConstruct type flags size) s =
      orFault ((s.writeBytes .pbuf 0 (packetHeader type flags size.toNat)).crc8 .pbuf 0 (4 + size.toNat)) fun c =>
        ((s.writeBytes .pbuf 0 (packetHeader type flags size.toNat)).memWrite .pbuf (4 + size.toNat) c).finish
          true false .none 0#8 := if_neg (Nat.not_lt.2 h)

/-- With the payload written, the CRC is that of header and payload (R108). -/
theorem exec_pktConstruct_of_holds (hs : size.toNat ≤ 59) (hl : payload.length = size.toNat)
    (hp : s.Holds .pbuf 4 payload) :
    exec (.pktConstruct type flags size) s =
      .next { s.constructed type flags payload with status := Status.success false 0#8 } := by
  have hheld := holds_packetHeader_append (type := type) (flags := flags) hp
  rw [exec_pktConstruct_of_size_le hs, ← hl, crc8_ok (by simp [packetHeader]; omega) hheld, orFault_ok,
    writeBytes_params]
  rfl

/-- The constructed state holds the packet (R76). -/
theorem holds_constructed (hl : payload.length ≤ 59) (hp : s.Holds .pbuf 4 payload) :
    (s.constructed type flags payload).Holds .pbuf 0 (packetBytes s.params type flags payload) := by
  have h := holds_memWrite_append (v := crcOf s.params (packetHeader type flags payload.length ++ payload))
    (by simp [packetHeader]; omega) (holds_packetHeader_append (type := type) (flags := flags) hp)
  rw [packetBytes_eq]
  rwa [List.length_append, Nat.zero_add] at h

/-- PKT_CONSTRUCT writes the header and the CRC byte alone (R109). -/
theorem byte_constructed (h4 : 4 ≤ o) (hne : o ≠ 4 + payload.length) :
    (s.constructed type flags payload).byte .pbuf o = s.byte .pbuf o := by
  rw [State.constructed, byte_memWrite_ne hne, byte_writeBytes_out (.inr (by simpa [packetHeader] using h4))]

/-- PKT_CONSTRUCT changes no field but PBUF before it finishes. -/
theorem constructed_eq (s : State) (type flags : Byte) (payload : List Byte) :
    s.constructed type flags payload = { s with pbuf := (s.constructed type flags payload).pbuf } := by
  ext <;> simp [State.constructed]

/-- Settles O40: the size is out of bounds, or the payload is written and the CRC is stored behind it, or a payload byte
is missing. -/
theorem pktConstruct : Obligations.PktConstruct := by
  intro s type flags size
  refine ⟨decodeWord_encode (.pktConstruct type flags size), fun h => exec_pktConstruct_of_size_gt h,
    fun payload hs hl hp => ⟨_, exec_pktConstruct_of_holds hs hl hp, ?_, fun o h4 hne => ?_, ?_⟩, fun hs hu => ?_⟩
  · rw [holds_setStatus]
    exact holds_constructed (hl ▸ hs) hp
  · rw [byte_setStatus, byte_constructed h4 (hl ▸ hne)]
  · rw [constructed_eq]
  · exact ⟨_, exec_pktConstruct_unwritten hs hu, writeBytes_status _ _ _ _⟩

/-! ### PKT_VALIDATE -/

/-- A wrong magic ends PKT_VALIDATE before it reads another byte (R111, R170). -/
theorem exec_pktValidate_of_magic_ne (h0 : s.byte .pbuf 0 = some v) (hv : v ≠ 0xAC#8) :
    exec .pktValidate s = s.fail .magic :=
  (orFault_memRead_of_byte h0).trans (if_pos hv)

/-- With the right magic, PKT_VALIDATE goes on to the length byte (R111). -/
theorem exec_pktValidate_of_magic (h0 : s.byte .pbuf 0 = some 0xAC#8) :
    exec .pktValidate s = orFault (s.memRead .pbuf 3) fun l =>
      if l.toNat < 5 ∨ l.toNat > 64 then s.fail .lengthBounds
      else orFault (s.crc8 .pbuf 0 l.toNat) fun c =>
        if c ≠ 0#8 then s.fail .crc else s.finish true false .none 0#8 :=
  (orFault_memRead_of_byte h0).trans (if_neg (not_not.2 rfl))

/-- With magic and length right, PKT_VALIDATE goes on to the CRC over the length (R111). -/
theorem exec_pktValidate_of_length (h0 : s.byte .pbuf 0 = some 0xAC#8) (h3 : s.byte .pbuf 3 = some l)
    (h5 : 5 ≤ l.toNat) (h64 : l.toNat ≤ 64) :
    exec .pktValidate s = orFault (s.crc8 .pbuf 0 l.toNat) fun c =>
      if c ≠ 0#8 then s.fail .crc else s.finish true false .none 0#8 := by
  rw [exec_pktValidate_of_magic h0, orFault_memRead_of_byte h3, if_neg (by omega)]

/-- Settles O42: each check is made when those before it pass, and each read faults on an unwritten byte. -/
theorem pktValidate : Obligations.PktValidate := by
  intro s
  refine ⟨decodeWord_packWord_of_opOnly (i := .pktValidate) rfl, fun m h0 hm => exec_pktValidate_of_magic_ne h0 hm,
    fun l h0 h3 hl => ?_, fun l d h0 h3 h5 h64 hd hs => ?_, fun h0 => ?_, fun h0 h3 => ?_,
    fun l h0 h3 h5 h64 hu => ?_⟩
  · rw [exec_pktValidate_of_magic h0, orFault_memRead_of_byte h3, if_pos hl]
    rfl
  · rw [exec_pktValidate_of_length h0 h3 h5 h64, crc8_ok hd hs, orFault_ok, ite_not]
    split <;> rfl
  · exact orFault_memRead_unwritten h0 (by simp)
  · rw [exec_pktValidate_of_magic h0, orFault_memRead_unwritten h3 (by simp)]
  · rw [exec_pktValidate_of_length h0 h3 h5 h64]
    exact orFault_of_error (crc8_unwritten hu)

/-! ### The validity of a packet -/

/-- A valid packet by the bytes that PKT_VALIDATE reads (R77). -/
theorem validPacket_iff :
    s.ValidPacket ↔ s.byte .pbuf 0 = some 0xAC#8
      ∧ ∃ l, s.byte .pbuf 3 = some l ∧ 5 ≤ l.toNat ∧ l.toNat ≤ 64 ∧ s.crc8 .pbuf 0 l.toNat = .ok 0#8 := by
  have hbyte {bs : List Byte} (hs : s.Holds .pbuf 0 bs) {k : Nat} (hk : k < bs.length) : s.byte .pbuf k = bs[k]? := by
    simpa using hs k hk
  constructor
  · rintro ⟨bs, hs, hm, hl, h5, h64, hc⟩
    have hlen : (BitVec.ofNat 8 bs.length).toNat = bs.length := by rw [BitVec.toNat_ofNat]; omega
    refine ⟨(hbyte hs (by omega)).trans hm, _, (hbyte hs (by omega)).trans hl, ?_⟩
    rw [hlen]
    exact ⟨h5, h64, crc8_ok_iff.2 ⟨bs, rfl, hs, hc⟩⟩
  · rintro ⟨hm, l, hl, h5, h64, hcrc⟩
    obtain ⟨bs, hlen, hs, hc⟩ := crc8_ok_iff.1 hcrc
    rw [hbyte hs (by omega)] at hm hl
    rw [← hlen] at h5 h64
    exact ⟨bs, hs, hm, by simp [hl, hlen], h5, h64, hc⟩

/-- The checks of PKT_VALIDATE are the conditions of R77: magic, length, CRC. -/
theorem okIff_pktValidate (s : State) : OkIff s.ValidPacket (exec .pktValidate s) := by
  refine okIff_congr (okIff_memRead fun m => okIff_check <| okIff_memRead fun l => okIff_check <|
    okIff_orFault fun c => okIff_check <| okIff_success s false 0#8) ?_
  simp [validPacket_iff, pktMagic, minTotal, maxTotal, pktHeaderSize, pktFooterSize, and_assoc]

/-- Settles O43: OK is the conjunction of the checks, and PKT_VALIDATE has no write set. -/
theorem pktValidateDecidesValidity : Obligations.PktValidateDecidesValidity := fun s t h =>
  ⟨okIff_pktValidate s t h, exec_cells_of_not_mem_writeSet (b := .pbuf) h (by simp [writeSet]),
    exec_cells_of_not_mem_writeSet (b := .fbuf) h (by simp [writeSet])⟩

/-- A valid packet passes every check of PKT_VALIDATE (R112). -/
theorem exec_pktValidate_of_validPacket (h : s.ValidPacket) :
    exec .pktValidate s = .next { s with status := Status.success false 0#8 } := by
  obtain ⟨h0, l, h3, h5, h64, hc⟩ := validPacket_iff.1 h
  rw [exec_pktValidate_of_length h0 h3 h5 h64, hc, orFault_ok, if_neg (not_not.2 rfl)]
  rfl

/-- The bytes of a packet are valid, because the CRC of a unit with its own CRC appended is zero (R100, R110). -/
theorem validPacketBytes_packetBytes (hz : p.crcZero = true) (hl : payload.length ≤ 59) :
    ValidPacketBytes p (packetBytes p type flags payload) := by
  have hlen : (packetBytes p type flags payload).length = payload.length + 5 := by simp [packetBytes]
  rw [ValidPacketBytes, hlen]
  exact ⟨rfl, rfl, by omega, by omega, crcOf_append_crcOf hz _⟩

/-- Settles O41: the constructed packet is valid, and issuing the next command leaves it as it is. -/
theorem constructThenValidateSucceeds : Obligations.ConstructThenValidateSucceeds := by
  intro s type flags size hz
  refine ⟨fun payload hs hl hp => ⟨_, exec_pktConstruct_of_holds hs hl hp, fun w => ?_⟩,
    fun h => exec_pktConstruct_of_size_gt h⟩
  have hheld := holds_constructed (type := type) (flags := flags) (hl ▸ hs) hp
  refine exec_pktValidate_of_validPacket ⟨_, holds_congr (fun _ _ => byte_congr rfl rfl) hheld, ?_⟩
  rw [issue_params, constructed_eq]
  exact validPacketBytes_packetBytes hz (hl ▸ hs)

/-! ### The accessors -/

/-- `(L - 5) mod 256` over the integers, with the wrap below 5 (R117). -/
theorem payloadSize_eq_ofInt (l : Byte) : payloadSize l = BitVec.ofInt 8 (((l.toNat : Int) - 5) % 256) := by
  apply BitVec.eq_of_toNat_eq
  rw [payloadSize, BitVec.toNat_sub, BitVec.toNat_ofInt]
  simp
  omega

/-- Settles O44: each accessor reads its one byte, which is written or not. -/
theorem packetAccessors : Obligations.PacketAccessors := by
  intro s v
  refine ⟨fun x y z => ⟨decodeWord_packWord_of_opOnly (i := .pktGetType) rfl x y z,
      decodeWord_packWord_of_opOnly (i := .pktGetFlags) rfl x y z,
      decodeWord_packWord_of_opOnly (i := .pktGetPayloadSize) rfl x y z⟩,
    fun h => orFault_memRead_of_byte h, fun h => orFault_memRead_unwritten h (by simp),
    fun h => orFault_memRead_of_byte h, fun h => orFault_memRead_unwritten h (by simp),
    fun h => ?_, fun h => orFault_memRead_unwritten h (by simp)⟩
  rw [← payloadSize_eq_ofInt]
  exact orFault_memRead_of_byte h

end Sys2Proof.Machine

/-! PROOFS of the statements about the frame codec (spec/42_frame_codec.md): FRM_VALIDATE check by check, the two
accessors, and that the frames the two building commands make are valid. -/

namespace Sys2Proof.Machine

variable {s t : State} {v i fl index flags : Byte} {p : Params} {d : List Byte}

/-! ### FRM_VALIDATE -/

/-- Header and payload lie in FBUF whatever the footer revision (R25). -/
theorem lt_size_fbuf {o : Nat} (ho : o < 20) : o < s.size .fbuf := ho.trans_le (frameSize_le s.params).1

/-- A wrong header magic ends FRM_VALIDATE before it reads another byte (R127, R170). -/
theorem exec_frmValidate_of_magic_ne (h0 : s.byte .fbuf 0 = some v) (hv : v ≠ 0xAE#8) :
    exec .frmValidate s = s.fail .magic :=
  (orFault_memRead_of_byte h0).trans (if_pos hv)

/-- The checks of FRM_VALIDATE after the index: the footer magic when TAGGED, then the CRC (R127). -/
def checkFrameFooter (s : State) : Result :=
  match s.params.footerRev with
  | .tagged => orFault (s.memRead .fbuf 19) fun x => if x ≠ 0xAF#8 then s.fail .magic else checkFrameCrc s
  | .plain => checkFrameCrc s

theorem checkFrameFooter_of_tagged (hf : s.params.footerRev = .tagged) :
    checkFrameFooter s =
      orFault (s.memRead .fbuf 19) fun x => if x ≠ 0xAF#8 then s.fail .magic else checkFrameCrc s := by
  rw [checkFrameFooter, hf]

/-- When the footer magic is right or there is none, the CRC is left to check (R127). -/
theorem checkFrameFooter_of_magic (hf : s.params.footerRev = .tagged → s.byte .fbuf 19 = some 0xAF#8) :
    checkFrameFooter s = checkFrameCrc s := by
  cases hrev : s.params.footerRev with
  | tagged => rw [checkFrameFooter_of_tagged hrev, orFault_memRead_of_byte (hf hrev), if_neg (not_not.2 rfl)]
  | plain => rw [checkFrameFooter, hrev]

/-- With the right magic, FRM_VALIDATE goes on to the index (R127). -/
theorem exec_frmValidate_of_magic (h0 : s.byte .fbuf 0 = some 0xAE#8) :
    exec .frmValidate s =
      orFault (s.memRead .fbuf 1) fun i => if 4 ≤ i.toNat then s.fail .sizeBounds else checkFrameFooter s :=
  (orFault_memRead_of_byte h0).trans (if_neg (not_not.2 rfl))

/-- With magic and index right, FRM_VALIDATE goes on to the footer (R127). -/
theorem exec_frmValidate_of_index (h0 : s.byte .fbuf 0 = some 0xAE#8) (h1 : s.byte .fbuf 1 = some i)
    (hi : i.toNat < 4) : exec .frmValidate s = checkFrameFooter s := by
  rw [exec_frmValidate_of_magic h0, orFault_memRead_of_byte h1, if_neg (Nat.not_le.2 hi)]

/-- The CRC of a frame that is written whole decides the last check (R127). -/
theorem checkFrameCrc_of_holds (hl : d.length = s.params.frameSize) (hd : s.Holds .fbuf 0 d) :
    checkFrameCrc s =
      .next { s with status := if crcOf s.params d = 0#8 then Status.success false 0#8 else Status.failure 3#4 } := by
  rw [checkFrameCrc, crc8_ok hl hd, orFault_ok, ite_not]
  split <;> rfl

/-- Settles O46: each check is made when those before it pass, and each read faults on an unwritten byte. -/
theorem frmValidate : Obligations.FrmValidate := by
  intro s
  refine ⟨decodeWord_packWord_of_opOnly (i := .frmValidate) rfl, fun m h0 hm => exec_frmValidate_of_magic_ne h0 hm,
    fun i h0 h1 hi => ?_, fun i x h0 h1 hi hf h19 hx => ?_,
    fun i d h0 h1 hi hf hl hd => ?_, fun h0 => orFault_memRead_unwritten h0 (lt_size_fbuf (by decide)),
    fun h0 h1 => ?_, fun i h0 h1 hi hf h19 => ?_, fun i h0 h1 hi hf hu => ?_⟩
  · rw [exec_frmValidate_of_magic h0, orFault_memRead_of_byte h1, if_pos hi]
    rfl
  · rw [exec_frmValidate_of_index h0 h1 hi, checkFrameFooter_of_tagged hf, orFault_memRead_of_byte h19, if_pos hx]
    rfl
  · rw [exec_frmValidate_of_index h0 h1 hi, checkFrameFooter_of_magic hf, checkFrameCrc_of_holds hl hd]
  · rw [exec_frmValidate_of_magic h0, orFault_memRead_unwritten h1 (lt_size_fbuf (by decide))]
  · rw [exec_frmValidate_of_index h0 h1 hi, checkFrameFooter_of_tagged hf,
      orFault_memRead_unwritten h19 (lt_size_fbuf (by decide))]
  · rw [exec_frmValidate_of_index h0 h1 hi, checkFrameFooter_of_magic hf]
    exact orFault_of_error (crc8_unwritten hu)

/-! ### The accessors -/

/-- RequestResend is bit 2 (R83). -/
theorem requestResend_eq_getLsbD (fl : Byte) : requestResend fl = fl.getLsbD 2 := by
  rw [requestResend, show frmRR = BitVec.twoPow 8 2 by decide, BitVec.and_twoPow]
  cases fl.getLsbD 2 <;> decide

/-- FRM_IS_RESEND with its byte written (R131). -/
theorem exec_frmIsResend_of_byte (h : s.byte .fbuf 2 = some v) :
    exec .frmIsResend s =
      .next { s with status := Status.success false (if v.getLsbD 2 then 0x01#8 else 0x00#8) } := by
  rw [← requestResend_eq_getLsbD]
  exact orFault_memRead_of_byte h

/-- Settles O48: each accessor reads its one byte, which is written or not. -/
theorem frameAccessors : Obligations.FrameAccessors := by
  intro s v
  exact ⟨fun x y z => ⟨decodeWord_packWord_of_opOnly (i := .frmIsResend) rfl x y z,
      decodeWord_packWord_of_opOnly (i := .frmGetIndex) rfl x y z⟩,
    fun h => exec_frmIsResend_of_byte h, fun h => orFault_memRead_unwritten h (lt_size_fbuf (by decide)),
    fun h => orFault_memRead_of_byte h, fun h => orFault_memRead_unwritten h (lt_size_fbuf (by decide))⟩

/-! ### The frames that are built -/

/-- A valid frame passes every check of FRM_VALIDATE (R128). -/
theorem exec_frmValidate_of_validFrame (h : s.ValidFrame) :
    exec .frmValidate s = .next { s with status := Status.success false 0#8 } := by
  obtain ⟨h0, ⟨i, h1, hi⟩, hf, hc⟩ := validFrame_iff.1 h
  rw [exec_frmValidate_of_index h0 h1 hi, checkFrameFooter_of_magic hf, checkFrameCrc, hc, orFault_ok,
    if_neg (not_not.2 rfl)]
  rfl

/-- The bytes of a frame with an index below MAX_FRAMES are valid, because the CRC of a unit with its own CRC appended
is zero (R100, R155). -/
theorem validFrameBytes_frameBytes (hz : p.crcZero = true) (hi : index.toNat < 4) (hd : d.length = 16) :
    ValidFrameBytes p (frameBytes p index flags d) := by
  refine ⟨?_, rfl, ⟨index, rfl, hi⟩, fun hf => ?_, crcOf_append_crcOf hz _⟩
  · rw [frameSize_eq_ite]
    split <;> simp [frameBytes, *]
  · simp [frameBytes, hf, hd]

/-- A block whose FBUF holds the bytes of a frame is valid to FRM_VALIDATE (R128). -/
theorem exec_frmValidate_of_holds_frameBytes (hz : s.params.crcZero = true) (hi : index.toNat < 4) (hd : d.length = 16)
    (h : s.Holds .fbuf 0 (frameBytes s.params index flags d)) :
    exec .frmValidate s = .next { s with status := Status.success false 0#8 } :=
  exec_frmValidate_of_validFrame ⟨_, h, validFrameBytes_frameBytes hz hi hd⟩

/-- The flags byte of a frame is its third (R78). -/
theorem byte_flags_of_holds_frameBytes (h : s.Holds .fbuf 0 (frameBytes p index flags d)) :
    s.byte .fbuf 2 = some flags := h 2 (by simp [frameBytes])

/-- FRM_BUILD keeps every flag bit of the caller's but TransactionEnd, bit 1 (R146). -/
theorem getLsbD_frameFlags {k : Nat} (hk : k ≠ 1) (fin : Byte) (last : Bool) :
    (frameFlags fin last).getLsbD k = fin.getLsbD k := by
  have hTE : frmTE.getLsbD k = false := by
    rw [show frmTE = BitVec.twoPow 8 1 by decide, BitVec.getLsbD_twoPow]
    simp [hk.symm]
  cases last with
  | true => simp [frameFlags, hTE]
  | false => simpa [frameFlags, hTE] using BitVec.lt_of_getLsbD

/-- With a header in place, what sealing the frame and completing answers holds the frame (R142, R154). -/
theorem holds_frameBytes_of_sealed {ok more : Bool} {e : ErrCode} (hd : d.length = 16)
    (hs : s.Holds .fbuf 0 ([0xAE#8, index, flags] ++ d))
    (h : (orFault s.sealFrame fun u => u.finish ok more e v) = .next t) :
    t.Holds .fbuf 0 (frameBytes s.params index flags d) := by
  obtain ⟨u, hu, hheld, -⟩ := sealFrame_holds hd hs
  rw [hu, orFault_ok] at h
  rwa [finish_next h, holds_setStatus]

/-- A successful FRM_BUILD leaves a frame of its index in FBUF, with the caller's flags but for TransactionEnd
(R142). -/
theorem holds_frameBytes_of_exec_frmBuild (h : exec (.frmBuild flags index) s = .next t) (hok : t.status.ok = true) :
    ∃ l d, s.byte .pbuf 3 = some l ∧ d.length = 16
      ∧ t.Holds .fbuf 0 (frameBytes s.params index (frameFlags flags (lastFrame index l)) d) := by
  obtain ⟨l, hl, h⟩ := orFault_next h
  split at h
  · rw [finish_next h] at hok
    cases hok
  · obtain ⟨d, hd, h⟩ := orFault_next h
    have hlen := slice_length hd
    have hheld := holds_frameBytes_of_sealed hlen (holds_writeBytes ?_) h
    · rw [writeBytes_params] at hheld
      exact ⟨l, d, memRead_ok_iff.1 hl, hlen, hheld⟩
    · have := frameSize_le s.params
      simp [hlen]
      omega

/-- A completed FRM_BUILD_RESEND leaves a frame of index 0 with RequestResend alone in FBUF (R154). -/
theorem holds_frameBytes_of_exec_frmBuildResend (h : exec .frmBuildResend s = .next t) :
    ∃ d, d.length = 16 ∧ t.Holds .fbuf 0 (frameBytes s.params 0x00#8 0x04#8 d) := by
  have hsize := frameSize_le s.params
  obtain ⟨d, hlen, hd⟩ | ⟨d, hlt, -, hn⟩ := holds_or_first s .fbuf 3 16
  · have hheld := holds_frameBytes_of_sealed hlen (holds_writeBytes_append (by simp; omega) hd) h
    rw [writeBytes_params] at hheld
    exact ⟨d, hlen, hheld⟩
  · rw [exec_frmBuildResend_unwritten ⟨by rw [size_fbuf]; omega, d.length, hlt, hn⟩] at h
    cases h

/-- Settles O54: both commands leave the bytes of a frame, whose flags byte tells the two apart. -/
theorem builtFramesValidate : Obligations.BuiltFramesValidate := by
  refine ⟨fun s t fin i hz hi h hok => ?_, fun s t hz h => ?_⟩
  · obtain ⟨l, d, -, hd, hheld⟩ := holds_frameBytes_of_exec_frmBuild h hok
    rw [← exec_params h] at hz hheld
    refine ⟨exec_frmValidate_of_holds_frameBytes hz hi hd hheld, fun hfin => ?_⟩
    rw [exec_frmIsResend_of_byte (byte_flags_of_holds_frameBytes hheld), getLsbD_frameFlags (by decide), hfin]
    rfl
  · obtain ⟨d, hd, hheld⟩ := holds_frameBytes_of_exec_frmBuildResend h
    rw [← exec_params h] at hz hheld
    exact ⟨exec_frmValidate_of_holds_frameBytes hz (by decide) hd hheld,
      exec_frmIsResend_of_byte (byte_flags_of_holds_frameBytes hheld)⟩

end Sys2Proof.Machine

/-! PROOFS of the statements about the segmenter (spec/43_segmenter.md): FRM_BUILD outcome by outcome, its TransactionEnd
bit, the frames of a packet built in order, and a frame that the host marks TransactionEnd itself. -/

namespace Sys2Proof.Machine

variable {s g : State} {b : Buf} {o k n : Nat} {v i l fl flags index : Byte} {p : Params} {d vs : List Byte}

/-! ### FRM_BUILD -/

/-- FRM_BUILD ignores field C (R62, R64). -/
theorem decodeWord_frmBuild (flags index c : Byte) :
    decodeWord (packWord 0x30#8 flags index c) = .ok (.frmBuild flags index) := by
  simp [decodeWord]

/-- An index at or above the frame count writes nothing, and no frame is left to build (R142, R147). -/
theorem exec_frmBuild_of_frameCount_le (hl : s.byte .pbuf 3 = some l) (hi : frameCount l ≤ index.toNat) :
    exec (.frmBuild flags index) s = .next { s with status := Status.failure 1#4 } := by
  have hmore : moreToBuild index l = false := decide_eq_false (by omega)
  refine (orFault_memRead_of_byte hl).trans ((if_pos hi).trans ?_)
  rw [hmore]
  rfl

/-- An index below the frame count: the slice is read, then the frame around it is written and sealed (R142). -/
theorem exec_frmBuild_of_lt_frameCount (hl : s.byte .pbuf 3 = some l) (hi : index.toNat < frameCount l) :
    exec (.frmBuild flags index) s =
      orFault (s.slice index l) fun d =>
        orFault (s.writeBytes .fbuf 0 ([0xAE#8, index, frameFlags flags (lastFrame index l)] ++ d)).sealFrame fun u =>
          u.finish true (moreToBuild index l) .none 0#8 :=
  (orFault_memRead_of_byte hl).trans (if_neg (Nat.not_le.2 hi))

/-- A slice whose packet bytes are written is those bytes, filled up with zeros (R142). -/
theorem slice_of_holds (hd : d.length = min 16 (l.toNat - 16 * index.toNat)) (h : s.Holds .pbuf (16 * index.toNat) d) :
    s.slice index l = .ok (d ++ List.replicate (16 - d.length) 0#8) := by
  have hr : s.readRange .pbuf (sliceOffset index) (sliceCount index l.toNat) = .ok d := readRange_ok_iff.2 ⟨hd, h⟩
  rw [State.slice, hr]
  rfl

/-- A slice in PBUF with an unwritten byte is not read (R26). -/
theorem slice_unwritten (h : s.SomeUnwritten .pbuf (16 * index.toNat) (min 16 (l.toNat - 16 * index.toNat))) :
    s.slice index l = .error (.unwrittenRead s) := by
  have hr : s.readRange .pbuf (sliceOffset index) (sliceCount index l.toNat) = .error (.unwrittenRead s) :=
    readRange_unwritten h
  rw [State.slice, hr]

/-- A range that starts past the end of its buffer overruns it at its first byte (R144). -/
theorem readRange_of_size_le (ho : s.size b ≤ o) (hn : 0 < n) : s.readRange b o n = .error (.frameSourceOverrun s) := by
  obtain ⟨n, rfl⟩ := Nat.exists_eq_succ_of_ne_zero hn.ne'
  rw [State.readRange, memRead_eq, byte_eq_none ho, if_neg (Nat.not_lt.2 ho)]

/-- From index 4 on, a slice with packet bytes lies past the end of PBUF (R144). -/
theorem slice_overrun (hi : index.toNat < frameCount l) (h4 : 4 ≤ index.toNat) :
    s.slice index l = .error (.frameSourceOverrun s) := by
  have hr : s.readRange .pbuf (sliceOffset index) (sliceCount index l.toNat) = .error (.frameSourceOverrun s) := by
    refine readRange_of_size_le ?_ ?_
    · simp only [size_pbuf, sliceOffset, frmPayloadLen]
      omega
    · simp only [frameCount] at hi
      simp only [sliceCount, sliceOffset, frmPayloadLen]
      omega
  rw [State.slice, hr]

/-- Header and payload written and sealed are a frame, and nothing but FBUF has changed (R78, R79). -/
theorem sealFrame_writeBytes (hd : d.length = 16) :
    ∃ u, (s.writeBytes .fbuf 0 ([0xAE#8, index, flags] ++ d)).sealFrame = .ok u
      ∧ u.Holds .fbuf 0 (frameBytes s.params index flags d) ∧ u = { s with fbuf := u.fbuf } := by
  have hsize := (frameSize_le s.params).1
  obtain ⟨u, hu, hheld, hframe⟩ := sealFrame_holds hd
    (holds_writeBytes (s := s) (b := .fbuf) (o := 0) (vs := [0xAE#8, index, flags] ++ d) (by simp [hd]; omega))
  rw [writeBytes_params] at hheld
  refine ⟨u, hu, hheld, ?_⟩
  rw [hframe]
  ext <;> simp

/-- FRM_BUILD with its slice written: the frame in FBUF, MORE from the index, and nothing else changed (R142, R147,
R148). -/
theorem exec_frmBuild_of_holds (hl : s.byte .pbuf 3 = some l) (hi : index.toNat < frameCount l)
    (hd : d.length = min 16 (l.toNat - 16 * index.toNat)) (h : s.Holds .pbuf (16 * index.toNat) d) :
    ∃ t, exec (.frmBuild flags index) s = .next t
      ∧ t.Holds .fbuf 0 (frameBytes s.params index (frameFlags flags (lastFrame index l))
          (d ++ List.replicate (16 - d.length) 0#8))
      ∧ t = { s with fbuf := t.fbuf, status := Status.success (moreToBuild index l) 0#8 } := by
  obtain ⟨u, hu, hheld, hframe⟩ := sealFrame_writeBytes (s := s) (index := index)
    (flags := frameFlags flags (lastFrame index l)) (slice_length (slice_of_holds hd h))
  rw [exec_frmBuild_of_lt_frameCount hl hi, slice_of_holds hd h, orFault_ok, hu, orFault_ok]
  refine ⟨_, rfl, (holds_setStatus _ _ _ _ _).2 hheld, ?_⟩
  rw [hframe]
  rfl

/-- The flags byte of the frame, TransactionEnd forced on or off (R142, R143). -/
theorem frameFlags_lastFrame (fin i l : Byte) :
    frameFlags fin (lastFrame i l) = if i.toNat + 1 = (l.toNat + 15) / 16 then fin ||| 0x02#8 else fin &&& 0xFD#8 := by
  simp only [frameFlags, lastFrame, decide_eq_true_eq]
  rfl

/-- Settles O50: the index is out of bounds, or the slice is written, past the end of PBUF, or not all written. -/
theorem frmBuild : Obligations.FrmBuild := by
  intro s fin i
  refine ⟨decodeWord_frmBuild fin i, fun l hl hi => exec_frmBuild_of_frameCount_le hl hi, fun l d hl hi hd h => ?_,
    fun l hl hi h4 => ?_, fun h3 => orFault_memRead_unwritten h3 (by simp), fun l hl hi _ hu => ?_⟩
  · obtain ⟨t, ht, hheld, hframe⟩ := exec_frmBuild_of_holds (flags := fin) hl hi hd h
    rw [frameFlags_lastFrame] at hheld
    exact ⟨t, ht, hheld, hframe⟩
  · rw [exec_frmBuild_of_lt_frameCount hl hi]
    exact orFault_of_error (slice_overrun hi h4)
  · rw [exec_frmBuild_of_lt_frameCount hl hi]
    exact orFault_of_error (slice_unwritten hu)

/-! ### TransactionEnd -/

/-- FRM_BUILD forces TransactionEnd on in the last frame and off in the others (R143). -/
theorem getLsbD_one_frameFlags (fin : Byte) (last : Bool) : (frameFlags fin last).getLsbD 1 = last := by
  cases last <;> simp [frameFlags, frmTE]

/-- Settles O51: the flags byte of the frame is the caller's with its bit 1 forced. -/
theorem transactionEndMarksTheLastFrame : Obligations.TransactionEndMarksTheLastFrame := by
  intro s t fin i l h hok hl
  obtain ⟨l', d, hl', -, hheld⟩ := holds_frameBytes_of_exec_frmBuild h hok
  obtain rfl : l' = l := Option.some.inj (hl'.symm.trans hl)
  refine ⟨_, byte_flags_of_holds_frameBytes hheld, ?_, fun k hk => getLsbD_frameFlags hk _ _⟩
  rw [getLsbD_one_frameFlags, lastFrame, decide_eq_true_eq, frameCount]
  omega

/-! ### The frames of a packet in order -/

/-- A part of bytes that are held is held at its own offset. -/
theorem holds_take_drop (h : s.Holds b o vs) (k n : Nat) : s.Holds b (o + k) ((vs.drop k).take n) := by
  intro j hj
  simp only [List.length_take, List.length_drop] at hj
  rw [Nat.add_assoc, h (k + j) (by omega), List.getElem?_take_of_lt (by omega), List.getElem?_drop]

/-- One frame of a packet that is written whole, built on any command word (R142, R150). -/
theorem exec_frmBuild_of_packet (hl : s.byte .pbuf 3 = some l) (hd : d.length = l.toNat) (h : s.Holds .pbuf 0 d)
    (hk : k < frameCount l) (w : Word) :
    ∃ t, exec (.frmBuild flags (BitVec.ofNat 8 k)) (s.issue w) = .next t
      ∧ t.status = Status.success (decide (k + 1 < frameCount l)) 0#8
      ∧ t.byte .fbuf 2 = some (frameFlags flags (decide (k + 1 = frameCount l)))
      ∧ t.params = s.params ∧ t.pbuf = s.pbuf := by
  have hk8 : (BitVec.ofNat 8 k).toNat = k := by
    have := l.isLt
    rw [frameCount] at hk
    rw [BitVec.toNat_ofNat]
    omega
  have hslice := holds_take_drop h (16 * k) 16
  obtain ⟨t, ht, hheld, hframe⟩ := exec_frmBuild_of_holds (s := s.issue w) (flags := flags) (index := BitVec.ofNat 8 k)
    (d := (d.drop (16 * k)).take 16) hl (by rwa [hk8]) (by simp [hk8, hd])
    (by rw [hk8]; rwa [Nat.zero_add] at hslice)
  have hflags := byte_flags_of_holds_frameBytes hheld
  rw [lastFrame, hk8] at hflags
  rw [moreToBuild, hk8] at hframe
  exact ⟨t, ht, by rw [hframe], hflags, by rw [hframe]; rfl, by rw [hframe]; rfl⟩

/-- The remaining `n` frames of a packet that is written whole are built in order, and PBUF keeps the packet (R150). -/
theorem buildsInOrder_of_packet (hl : s.byte .pbuf 3 = some l) (hd : d.length = l.toNat) (h : s.Holds .pbuf 0 d)
    (hn : k + n = frameCount l) :
    ∃ t, BuildsInOrder flags (frameCount l) k n s t ∧ t.params = s.params ∧ t.pbuf = s.pbuf := by
  induction n generalizing k s with
  | zero => exact ⟨s, rfl, rfl, rfl⟩
  | succ n ih =>
    obtain ⟨u, hu, hst, hfl, hparams, hpbuf⟩ := exec_frmBuild_of_packet (flags := flags) (k := k) hl hd h (by omega)
      (encode (.frmBuild flags (BitVec.ofNat 8 k)))
    have hbyte (o) : u.byte .pbuf o = s.byte .pbuf o := byte_congr hparams hpbuf
    obtain ⟨t, ht, hparams', hpbuf'⟩ := ih (k := k + 1) ((hbyte 3).trans hl) (holds_congr (fun _ _ => hbyte _) h)
      (by omega)
    refine ⟨t, ⟨u, _, hu, by rw [hst]; rfl, ?_, hfl, getLsbD_one_frameFlags _ _, ht⟩, hparams'.trans hparams,
      hpbuf'.trans hpbuf⟩
    rw [hst]
    exact decide_eq_decide.2 (by omega)

/-- Settles O52: every frame is built from the packet that the builds before it kept. -/
theorem buildingAllFramesInOrder : Obligations.BuildingAllFramesInOrder := by
  intro s fin l d hl _ h64 hd h
  obtain ⟨t, ht, hparams, hpbuf⟩ := buildsInOrder_of_packet (flags := fin) (k := 0) hl hd h (Nat.zero_add _)
  have hl' : t.byte .pbuf 3 = some l := (byte_congr (b := .pbuf) hparams hpbuf).trans hl
  refine ⟨t, ht, hpbuf, fun w => exec_frmBuild_of_frameCount_le (l := l) hl' ?_⟩
  rw [frameCount, BitVec.toNat_ofNat]
  omega

/-! ### A frame marked TransactionEnd by hand -/

/-- What the CRC of a frame covers: header, payload and, when TAGGED, the footer magic (R78, R79). -/
def frameBody (p : Params) (index flags : Byte) (d : List Byte) : List Byte :=
  [0xAE#8, index, flags] ++ d ++ footerTag p

theorem frameBytes_eq (p : Params) (index flags : Byte) (d : List Byte) :
    frameBytes p index flags d = frameBody p index flags d ++ [crcOf p (frameBody p index flags d)] := rfl

/-- The CRC byte comes right after what it covers (R6). -/
theorem length_frameBody (hd : d.length = 16) : (frameBody p index flags d).length = p.frameCrcOffset := by
  rcases frameSize_cases p with ⟨hf, -, hc⟩ | ⟨hf, -, hc⟩ <;> simp [frameBody, footerTag, hf, hc, hd]

/-- Storing a byte over one of those held replaces it. -/
theorem holds_memWrite_set (h : s.Holds b o vs) (hk : k < vs.length) :
    (s.memWrite b (o + k) v).Holds b o (vs.set k v) := by
  have hbound := holds_bound h (by omega)
  intro j hj
  rw [List.length_set] at hj
  obtain rfl | hne := eq_or_ne j k
  · rw [byte_memWrite_same (by omega), List.getElem?_set_self hk]
  · rw [byte_memWrite_ne (by omega), h j hj, List.getElem?_set_ne hne.symm]

/-- The host sets the flags byte of a frame, and what its CRC must cover is in place (R151). -/
theorem holds_frameBody_of_memWrite_flags (h : s.Holds .fbuf 0 (frameBytes p index flags d)) (fl : Byte) :
    (s.memWrite .fbuf 2 fl).Holds .fbuf 0 (frameBody p index fl d) := by
  rw [frameBytes_eq, holds_append] at h
  exact holds_memWrite_set (k := 2) h.1 (by simp [frameBody])

/-- The host stores the CRC that CRC8 gives of a frame without one, and the frame is whole (R151). -/
theorem holds_frameBytes_of_exec_crc8 (hp : s.params = p) (hd : d.length = 16)
    (h : s.Holds .fbuf 0 (frameBody p index flags d))
    (hg : exec (.crc8 0#8 (BitVec.ofNat 8 p.frameCrcOffset) .fbuf) s = .next g) :
    (g.memWrite .fbuf p.frameCrcOffset g.status.value).Holds .fbuf 0 (frameBytes p index flags d) := by
  subst hp
  have hoff : s.params.frameCrcOffset < s.params.frameSize ∧
      (BitVec.ofNat 8 s.params.frameCrcOffset).toNat = s.params.frameCrcOffset := by
    rcases frameSize_cases s.params with ⟨-, hsize, hcrc⟩ | ⟨-, hsize, hcrc⟩ <;> simp [hsize, hcrc]
  obtain ⟨hlt, hcount⟩ := hoff
  have hlen : (frameBody s.params index flags d).length = s.params.frameCrcOffset := length_frameBody hd
  rw [exec_crc8_of_le_size (by simp [hcount]; omega), hcount, BitVec.toNat_zero, crc8_ok hlen h, orFault_ok] at hg
  rw [finish_next hg, frameBytes_eq, ← Nat.zero_add s.params.frameCrcOffset, ← hlen]
  exact holds_memWrite_append (by rwa [Nat.zero_add, hlen]) ((holds_setStatus _ _ _ _ _).2 h)

/-- TransactionEnd is bit 1 (R83). -/
theorem transactionEnd_eq_getLsbD (fl : Byte) : transactionEnd fl = fl.getLsbD 1 := by
  rw [transactionEnd, show frmTE = BitVec.twoPow 8 1 by decide, BitVec.and_twoPow]
  cases fl.getLsbD 1 <;> decide

/-- FRM_RECONSTRUCT with index below 4 and the payload written: the payload is stored at the slice's offset, and MORE is
the negation of TransactionEnd (R160). -/
theorem exec_frmReconstruct_of_holds (hi : s.byte .fbuf 1 = some i) (hfl : s.byte .fbuf 2 = some fl) (h4 : i.toNat < 4)
    (hd : d.length = 16) (h : s.Holds .fbuf 3 d) :
    exec .frmReconstruct s =
      .next { s.writeBytes .pbuf (16 * i.toNat) d with status := Status.success (!fl.getLsbD 1) 0#8 } := by
  have hc : s.copyRange .fbuf frmPayloadOffset .pbuf (sliceOffset i) (sliceCount i maxTotal)
      = .ok (s.writeBytes .pbuf (16 * i.toNat) d) := by
    have hcopy := copyRange_ok (b' := .pbuf) (o' := 16 * i.toNat) (by decide) h
    rw [hd] at hcopy
    rw [sliceCount_maxTotal h4]
    exact hcopy
  rw [← transactionEnd_eq_getLsbD]
  refine (orFault_memRead_of_byte hi).trans ((orFault_memRead_of_byte hfl).trans ?_)
  rw [hc]
  rfl

/-- A frame in FBUF with index below 4 is reassembled (R160). -/
theorem exec_frmReconstruct_of_holds_frameBytes (h4 : index.toNat < 4) (hd : d.length = 16)
    (h : s.Holds .fbuf 0 (frameBytes p index flags d)) :
    exec .frmReconstruct s =
      .next { s.writeBytes .pbuf (16 * index.toNat) d with status := Status.success (!flags.getLsbD 1) 0#8 } := by
  have hpayload : s.Holds .fbuf 3 d := by
    simp only [frameBytes, holds_append] at h
    exact h.1.1.2
  exact exec_frmReconstruct_of_holds (h 1 (by simp [frameBytes])) (byte_flags_of_holds_frameBytes h) h4 hd hpayload

/-- Settles O58: the marked frame with CRC8's value stored is the frame of its new flags byte. -/
theorem handMarkedFrameValidates : Obligations.HandMarkedFrameValidates := by
  intro s f g fin i fl hz hi hf hok _ hg
  obtain ⟨l, d, -, hd, hbuilt⟩ := holds_frameBytes_of_exec_frmBuild hf hok
  have hmarked := holds_frameBody_of_memWrite_flags hbuilt (fl ||| 0x02#8)
  have hparams : (f.memWrite .fbuf 2 (fl ||| 0x02#8)).params = s.params := by rw [memWrite_params, exec_params hf]
  have hstored := holds_frameBytes_of_exec_crc8 hparams hd hmarked hg
  have hparams' : (g.memWrite .fbuf s.params.frameCrcOffset g.status.value).params = s.params := by
    rw [memWrite_params, exec_params hg, hparams]
  refine ⟨_, exec_frmValidate_of_holds_frameBytes (by rwa [hparams']) hi hd (by rwa [hparams']), rfl, _,
    exec_frmReconstruct_of_holds_frameBytes hi hd ((holds_setStatus _ _ _ _ _).2 hstored), ?_⟩
  have hlast : (fl ||| 0x02#8).getLsbD 1 = true := by simp
  rw [hlast]
  rfl

end Sys2Proof.Machine

/-! PROOFS of the statements about the resend signal (spec/44_resend_signal.md): the frame that FRM_BUILD_RESEND makes
around the payload in FBUF, and that FRM_RECONSTRUCT takes it for a data frame of index 0. -/

namespace Sys2Proof.Machine

variable {s : State} {d : List Byte}

theorem orFault_of_ok {α : Type} {r : Except Fault α} {k : α → Result} {a : α} (h : r = .ok a) : orFault r k = k a := by
  rw [h, orFault_ok]

/-- FRM_BUILD_RESEND with the payload written: the frame around it in FBUF, and nothing else changed (R154, R155). -/
theorem exec_frmBuildResend_of_holds (hd : d.length = 16) (h : s.Holds .fbuf 3 d) :
    ∃ t, exec .frmBuildResend s = .next t ∧ t.Holds .fbuf 0 (frameBytes s.params 0x00#8 0x04#8 d)
      ∧ t = { s with fbuf := t.fbuf, status := Status.success false 0#8 } := by
  have hheader : 0 + [0xAE#8, 0x00#8, 0x04#8].length ≤ s.size .fbuf := lt_size_fbuf (o := 2) (by decide)
  obtain ⟨u, hu, hheld, hframe⟩ := sealFrame_holds hd (holds_writeBytes_append hheader h)
  rw [writeBytes_params] at hheld
  refine ⟨{ u with status := Status.success false 0#8 }, orFault_of_ok hu, (holds_setStatus _ _ _ _ _).2 hheld, ?_⟩
  rw [hframe]
  ext <;> simp

/-- Settles O53: the payload that stands is framed, or one of its bytes is missing. -/
theorem frmBuildResend : Obligations.FrmBuildResend := fun _ =>
  ⟨decodeWord_packWord_of_opOnly (i := .frmBuildResend) rfl, fun _ hd h => exec_frmBuildResend_of_holds hd h,
    fun hu => ⟨_, exec_frmBuildResend_unwritten hu, by simp only [writeBytes_status]⟩⟩

/-- Settles O56: the frame has index 0, so its payload goes to the first slice of PBUF, and the flags byte 0x04 has
TransactionEnd clear. -/
theorem resendFrameIsReassembledLikeAnyOther : Obligations.ResendFrameIsReassembledLikeAnyOther := by
  intro s t d hd h ht
  obtain ⟨t', ht', hheld, -⟩ := exec_frmBuildResend_of_holds hd h
  obtain rfl : t = t' := Host.Outcome.next.inj (ht.symm.trans ht')
  refine ⟨_, exec_frmReconstruct_of_holds_frameBytes (by decide) hd hheld, ?_, rfl⟩
  exact (holds_setStatus _ _ _ _ _).2 (holds_writeBytes (by simp [hd]))

end Sys2Proof.Machine

/-! PROOFS of the statements about the reassembler (spec/45_reassembler.md): FRM_RECONSTRUCT outcome by outcome, and
that the frames of a packet, delivered in any order, make the packet again. -/

namespace Sys2Proof.Machine

variable {s snd r : State} {b : Buf} {o k n : Nat} {i fl flags : Byte} {d : List Byte} {order : List Nat}

/-! ### FRM_RECONSTRUCT -/

/-- An index of 4 or more writes nothing, because its slice has no byte below 64 (R160). -/
theorem exec_frmReconstruct_of_four_le (hi : s.byte .fbuf 1 = some i) (hfl : s.byte .fbuf 2 = some fl)
    (h4 : 4 ≤ i.toNat) :
    exec .frmReconstruct s = .next { s with status := Status.success (!fl.getLsbD 1) 0#8 } := by
  have hcount : sliceCount i maxTotal = 0 := by
    simp only [sliceCount, sliceOffset, frmPayloadLen, maxTotal]
    omega
  rw [← transactionEnd_eq_getLsbD]
  refine (orFault_memRead_of_byte hi).trans ((orFault_memRead_of_byte hfl).trans ?_)
  rw [hcount]
  rfl

/-- Without its index or flags byte, FRM_RECONSTRUCT has written nothing when it faults (R26). -/
theorem exec_frmReconstruct_header_unwritten (h : s.byte .fbuf 1 = none ∨ s.byte .fbuf 2 = none) :
    exec .frmReconstruct s = .fault (.unwrittenRead s) := by
  cases hi : s.byte .fbuf 1 with
  | none => exact orFault_memRead_unwritten hi (lt_size_fbuf (by decide))
  | some i =>
    have hfl : s.byte .fbuf 2 = none := h.resolve_left (by simp [hi])
    exact (orFault_memRead_of_byte hi).trans (orFault_memRead_unwritten hfl (lt_size_fbuf (by decide)))

/-- A range with an unwritten byte has a first one. -/
theorem exists_first_of_someUnwritten (h : s.SomeUnwritten b o n) :
    ∃ vs, vs.length < n ∧ s.Holds b o vs ∧ s.byte b (o + vs.length) = none := by
  obtain ⟨-, k, hk, hb⟩ := h
  obtain ⟨vs, rfl, hvs⟩ | hfirst := holds_or_first s b o n
  · rw [hvs k hk, List.getElem?_eq_getElem hk] at hb
    cases hb
  · exact hfirst

/-- Settles O55: the index is below 4 and the payload is copied, or nothing is, or a byte that is read is missing. -/
theorem frmReconstruct : Obligations.FrmReconstruct := by
  intro s
  refine ⟨decodeWord_packWord_of_opOnly (i := .frmReconstruct) rfl, fun i fl d hi hfl h4 hd h => ?_,
    fun i fl hi hfl h4 => exec_frmReconstruct_of_four_le hi hfl h4, exec_frmReconstruct_header_unwritten,
    fun i hi h4 hu => ?_⟩
  · refine ⟨_, exec_frmReconstruct_of_holds hi hfl h4 hd h, ?_, fun o ho => ?_, ?_⟩
    · exact (holds_setStatus _ _ _ _ _).2 (holds_writeBytes (by simp only [size_pbuf]; omega))
    · rw [byte_setStatus, byte_writeBytes_out (by omega)]
    · rw [writeBytes_pbuf_eq]
  · cases hfl : s.byte .fbuf 2 with
    | none => exact ⟨s, exec_frmReconstruct_header_unwritten (.inr hfl), rfl⟩
    | some fl =>
      obtain ⟨vs, hlt, hvs, hn⟩ := exists_first_of_someUnwritten hu
      exact ⟨_, exec_frmReconstruct_unwritten hi hfl h4 hlt hvs hn, writeBytes_status _ _ _ _⟩

/-! ### Segmenting and reassembling -/

/-- How many frames a packet of `n` bytes has (R85). -/
theorem frameCount_ofNat (h : n ≤ 64) : frameCount (BitVec.ofNat 8 n) = (n + 15) / 16 := by
  rw [frameCount, BitVec.toNat_ofNat, Nat.mod_eq_of_lt (by omega)]

/-- A packet filled up with zeros to the end of its last slice, as its frames carry it (R142, R162). -/
def paddedPacket (d : List Byte) : List Byte := d ++ List.replicate (16 * ((d.length + 15) / 16) - d.length) 0#8

theorem length_paddedPacket (d : List Byte) : (paddedPacket d).length = 16 * ((d.length + 15) / 16) := by
  simp only [paddedPacket, List.length_append, List.length_replicate]
  omega

/-- The payload of frame `k` of a packet. -/
def framePayload (d : List Byte) (k : Nat) : List Byte := ((paddedPacket d).drop (16 * k)).take 16

theorem length_framePayload (hk : k < (d.length + 15) / 16) : (framePayload d k).length = 16 := by
  simp only [framePayload, List.length_take, List.length_drop, length_paddedPacket]
  omega

theorem getElem?_framePayload (hn : n < 16) : (framePayload d k)[n]? = (paddedPacket d)[16 * k + n]? := by
  rw [framePayload, List.getElem?_take_of_lt hn, List.getElem?_drop]

/-- The slice that FRM_BUILD fills up with zeros is the payload of its frame (R142). -/
theorem slice_append_replicate (hk : k < (d.length + 15) / 16) :
    (d.drop (16 * k)).take 16 ++ List.replicate (16 - ((d.drop (16 * k)).take 16).length) 0#8 = framePayload d k := by
  rw [framePayload, paddedPacket, List.drop_append, List.take_append, List.drop_replicate, List.take_replicate]
  congr 2
  simp only [List.length_take, List.length_drop]
  omega

/-- FRM_BUILD on a packet leaves the frame of slice `k`, with TransactionEnd in the last frame alone (R142, R143). -/
theorem exec_frmBuild_frame_of_packet (h : snd.Holds .pbuf 0 d) (hd : ValidPacketBytes snd.params d)
    (hk : k < (d.length + 15) / 16) :
    ∃ f, exec (.frmBuild flags (BitVec.ofNat 8 k)) snd = .next f ∧ f.status.ok = true ∧ f.params = snd.params
      ∧ f.Holds .fbuf 0 (frameBytes snd.params (BitVec.ofNat 8 k)
          (frameFlags flags (decide (k + 1 = (d.length + 15) / 16))) (framePayload d k)) := by
  obtain ⟨-, hlen, h5, h64, -⟩ := hd
  have hcount := frameCount_ofNat h64
  have hl : snd.byte .pbuf 3 = some (BitVec.ofNat 8 d.length) := by simpa [hlen] using h 3 (by omega)
  have hk8 : (BitVec.ofNat 8 k).toNat = k := by rw [BitVec.toNat_ofNat]; omega
  have hslice := holds_take_drop h (16 * k) 16
  rw [Nat.zero_add] at hslice
  obtain ⟨f, hf, hheld, hframe⟩ := exec_frmBuild_of_holds (flags := flags) (index := BitVec.ofNat 8 k) hl
    (by rwa [hk8, hcount]) (d := (d.drop (16 * k)).take 16) (by simp [hk8]; omega) (by rwa [hk8])
  rw [slice_append_replicate hk, lastFrame, hk8, hcount] at hheld
  exact ⟨f, hf, by rw [hframe]; rfl, by rw [hframe], hheld⟩

/-- Storing the payload of frame `k` gives slice `k` its packet bytes and leaves the others (R160). -/
theorem byte_writeBytes_framePayload (h64 : d.length ≤ 64) (hk : k < (d.length + 15) / 16) :
    (s.writeBytes .pbuf (16 * k) (framePayload d k)).byte .pbuf o =
      if o / 16 = k then (paddedPacket d)[o]? else s.byte .pbuf o := by
  have hlen := length_framePayload hk
  split
  · next ho =>
    have hheld := holds_writeBytes (s := s) (b := .pbuf) (o := 16 * k) (vs := framePayload d k)
      (by rw [hlen, size_pbuf]; omega) (o % 16) (by omega)
    rwa [getElem?_framePayload (by omega), show 16 * k + o % 16 = o by omega] at hheld
  · exact byte_writeBytes_out (by omega)

/-- One frame of a packet, delivered to a receiver whose slice `k` it fills (R162). -/
theorem delivered_of_packet (hp : snd.params = r.params) (hz : snd.params.crcZero = true) (h : snd.Holds .pbuf 0 d)
    (hd : ValidPacketBytes snd.params d) (hk : k < (d.length + 15) / 16) :
    ∃ f v t, exec (.frmBuild flags (BitVec.ofNat 8 k)) snd = .next f ∧ f.status.ok = true
      ∧ exec .frmValidate { r with fbuf := f.fbuf } = .next v ∧ v.status.ok = true
      ∧ exec .frmReconstruct v = .next t ∧ t.status.more = decide (k + 1 < (d.length + 15) / 16)
      ∧ t.params = r.params
      ∧ ∀ o, t.byte .pbuf o = if o / 16 = k then (paddedPacket d)[o]? else r.byte .pbuf o := by
  obtain ⟨f, hf, hok, hfp, hbuilt⟩ := exec_frmBuild_frame_of_packet (flags := flags) h hd hk
  obtain ⟨-, -, -, h64, -⟩ := hd
  have hk8 : (BitVec.ofNat 8 k).toNat = k := by rw [BitVec.toNat_ofNat]; omega
  have h4 : (BitVec.ofNat 8 k).toNat < 4 := by omega
  have hlen := length_framePayload hk
  have hdelivered := holds_congr (t := { r with fbuf := f.fbuf })
    (fun _ _ => byte_congr (hp.symm.trans hfp.symm) rfl) hbuilt
  refine ⟨f, _, _, hf, hok,
    exec_frmValidate_of_holds_frameBytes (hp ▸ hz) h4 hlen (hp ▸ hdelivered), rfl,
    exec_frmReconstruct_of_holds_frameBytes h4 hlen ((holds_setStatus _ _ _ _ _).2 hdelivered), ?_,
    writeBytes_params _ _ _ _, fun o => ?_⟩
  · rw [getLsbD_one_frameFlags]
    exact decide_not.symm.trans (decide_eq_decide.2 (by omega))
  · rw [byte_setStatus, hk8, byte_writeBytes_framePayload h64 hk, byte_setStatus]
    rfl

/-- The frames listed reach the receiver one after the other, and each slice listed holds its packet bytes (R162). -/
theorem delivers_of_packet (hp : snd.params = r.params) (hz : snd.params.crcZero = true) (h : snd.Holds .pbuf 0 d)
    (hd : ValidPacketBytes snd.params d) (horder : ∀ k ∈ order, k < (d.length + 15) / 16) :
    ∃ r', Delivers snd flags ((d.length + 15) / 16) order r r' ∧ r'.params = r.params
      ∧ ∀ o, r'.byte .pbuf o = if o / 16 ∈ order then (paddedPacket d)[o]? else r.byte .pbuf o := by
  induction order generalizing r with
  | nil => exact ⟨r, rfl, rfl, fun o => by simp⟩
  | cons k ks ih =>
    obtain ⟨hk, hks⟩ := List.forall_mem_cons.1 horder
    obtain ⟨f, v, t, hf, hok, hv, hvok, ht, hmore, htp, htb⟩ := delivered_of_packet (flags := flags) hp hz h hd hk
    obtain ⟨r', hr, hrp, hrb⟩ := ih (hp.trans htp.symm) hks
    refine ⟨r', ⟨f, v, t, hf, hok, hv, hvok, ht, hmore, hr⟩, hrp.trans htp, fun o => ?_⟩
    simp only [hrb, htb, List.mem_cons, or_comm (a := o / 16 = k), ite_or]

/-- Settles O57: every slice is delivered, so PBUF of the receiver holds the packet and its zeros. -/
theorem segmentAndReassembleRoundTrip : Obligations.SegmentAndReassembleRoundTrip := by
  intro snd rcv flags d order hp hz h hd horder
  obtain ⟨r, hr, hrp, hrb⟩ := delivers_of_packet (flags := flags) hp hz h hd fun k hk => (horder k).1 hk
  have hheld : r.Holds .pbuf 0 (paddedPacket d) := by
    intro o ho
    rw [length_paddedPacket] at ho
    rw [Nat.zero_add, hrb, if_pos ((horder _).2 (by omega))]
  refine ⟨r, hr, hheld, exec_pktValidate_of_validPacket ⟨d, (holds_append.1 hheld).1, ?_⟩⟩
  rwa [hrp, ← hp]

end Sys2Proof.Machine

/-! PROOFS of the statements about exceptions (spec/60_exceptions.md): what a failing completion leaves, the commands that
have none, and the state in which a fault is raised. -/

namespace Sys2Proof.Machine

variable {s : State} {f : Fault} {a : Access} {r : Region} {x : Turn}

/-! ### Failing completions -/

theorem code_ne_zero {e : ErrCode} (he : e ≠ .none) : e.code ≠ 0#4 := by
  cases e
  case none => exact absurd rfl he
  all_goals decide

/-- No failure has a reserved code (R167). -/
theorem code_le_six (e : ErrCode) : e.code.toNat ≤ 6 := by cases e <;> decide

/-- With BUSY = 0 a command may be issued (R30). -/
theorem hostWrite_cmd_of_not_busy (hb : s.status.busy = false) (w : Word) : hostWrite .cmd w s = .next (s.issue w) := by
  simp [hostWrite, hb]

/-- Settles O10: a failing completion writes STATUS alone and clears BUSY, and a success has ERR = NONE. -/
theorem failuresChangeOnlyStatus : Obligations.FailuresChangeOnlyStatus := by
  intro i s t h
  obtain ⟨e, he, rfl⟩ | ⟨more, v, u, rfl, -⟩ := exec_cases h
  · exact ⟨fun _ => ⟨rfl, rfl, code_ne_zero he, code_le_six e, rfl, hostWrite_cmd_of_not_busy rfl⟩, nofun⟩
  · exact ⟨nofun, fun _ => rfl⟩

/-! ### Commands that cannot fail -/

/-- If the result is a completion, it has OK = 1. -/
def CannotFail (x : Result) : Prop := ∀ t, x = .next t → t.status.ok = true

theorem cannotFail_success (s : State) (more : Bool) (v : Byte) : CannotFail (s.finish true more .none v) := by
  intro t h
  rw [finish_next h]
  rfl

theorem cannotFail_orFault {α : Type} {x : Except Fault α} {k : α → Result} (hk : ∀ y, CannotFail (k y)) :
    CannotFail (orFault x k) := by
  intro t h
  obtain ⟨y, -, h⟩ := orFault_next h
  exact hk y t h

/-- Settles O11: such a command makes no check, so it goes on from what it reads to a success. -/
theorem commandsThatCannotFail : Obligations.CommandsThatCannotFail := by
  intro i s t hi h
  have hexec : CannotFail (exec i s) := by
    simp only [List.mem_cons, List.not_mem_nil, or_false] at hi
    obtain rfl | rfl | rfl | rfl | rfl | rfl | rfl := hi
    on_goal 7 =>
      exact cannotFail_orFault fun _ => cannotFail_orFault fun _ => cannotFail_orFault fun _ => cannotFail_success _ _ _
    all_goals exact cannotFail_orFault fun _ => cannotFail_success _ _ _
  have hok := hexec t h
  exact ⟨hok, (failuresChangeOnlyStatus i s t h).2 hok⟩

/-! ### The faulted state -/

/-- A fault of the engine's turn is its command's, raised before `finish`: STATUS stands as it was (R174). -/
theorem engineTurn_fault (h : engineTurn s = .fault f) :
    f.state.status.busy = true ∧ f.state.status = s.status
      ∧ f.state = { s with pbuf := f.state.pbuf, fbuf := f.state.fbuf } := by
  unfold engineTurn engineCommand at h
  split at h
  · next hb =>
    split at h
    · have hf : f.state = { s with pbuf := f.state.pbuf, fbuf := f.state.fbuf } := exec_faults h
      have hst : f.state.status = s.status := by rw [hf]
      exact ⟨hst ▸ hb, hst, hf⟩
    · cases h
  · cases h

theorem admission_error {off width : Nat} (h : s.admission off width = .error f) : f.state = s := by
  unfold State.admission at h
  split at h
  · cases h; rfl
  all_goals
    split at h <;> cases h
    rfl

theorem hostRead_fault (h : hostRead r s = .fault f) : f.state = s := by
  cases r with
  | cmd | status | config => cases h
  | reserved => cases h; rfl
  | buffer b i =>
    simp only [hostRead] at h
    split at h
    · cases h; rfl
    · obtain h | ⟨v, -, h⟩ := orFault_fault h
      · exact faults_memRead h
      · cases h

theorem hostWrite_fault {d : Word} (h : hostWrite r d s = .fault f) : f.state = s := by
  cases r with
  | status | config => cases h
  | reserved => cases h; rfl
  | cmd | buffer =>
    simp only [hostWrite] at h
    split at h <;> cases h
    rfl

/-- A fault replaces the access, so it holds the state before it (R174). -/
theorem hostAccess_fault (h : hostAccess a s = .fault f) : f.state = s := by
  unfold hostAccess at h
  split at h
  · cases h
  · obtain h | ⟨r, -, h⟩ := orFault_fault h
    · exact admission_error h
    · cases a with
      | read addr width => exact hostRead_fault h
      | write addr width d => exact hostWrite_fault h

theorem step_of_head? (h : s.turns.head? = some x) : step s = takeTurn x { s with turns := s.turns.tail } := by
  obtain ⟨ts, hts⟩ := List.head?_eq_some_iff.1 h
  rw [step_cons hts, hts, List.tail_cons]

/-- Settles O13: the step takes the turn at the head of the list, and the fault is that turn's. -/
theorem faultedStateIsTheOneBeforeFinishOrAccess : Obligations.FaultedStateIsTheOneBeforeFinishOrAccess := by
  intro s f
  refine ⟨engineTurn_fault, fun hx h => ?_, fun a hx h => ?_, fun hx h => ?_⟩ <;> rw [step_of_head? hx] at h
  · exact engineTurn_fault (s := { s with turns := s.turns.tail }) h
  · exact hostAccess_fault h
  · cases h

end Sys2Proof.Machine

/-! PROOFS of the statements about hazards (spec/70_reset_and_hazards.md): which buffers a command may change, and which
host accesses conflict with the running command; and of those about accesses that straddle a region or miss the window. -/

namespace Sys2Proof.Machine

variable {s : State} {i : Instr} {b : Buf} {o : Nat} {ts : List Turn} {d : Word}

/-! ### The write set of a command -/

/-- Settles O9: a failure writes STATUS alone, and a success writes only the buffers of its command's write set. -/
theorem commandsWriteOnlyTheirWriteSet : Obligations.CommandsWriteOnlyTheirWriteSet := by
  intro i s t h
  obtain ⟨e, -, rfl⟩ | ⟨more, v, u, rfl, -, -, -, hp, hf⟩ := exec_cases h
  · exact ⟨fun _ _ => rfl, fun _ _ => rfl⟩
  · exact ⟨hp, hf⟩

/-! ### Conflicts with the running command -/

/-- A host read conflicts with the running command when that command writes the buffer (R194). -/
theorem readHazard_eq_decide (hb : s.status.busy = true) (hd : decodeWord s.latch = .ok i) :
    s.readHazard b = decide (b ∈ writeSet i) := by
  simp [State.readHazard, latchWrites, hb, hd]

/-- A host write conflicts with the running command when that command reads or writes the buffer (R194). -/
theorem writeHazard_eq_decide (hb : s.status.busy = true) (hd : decodeWord s.latch = .ok i) :
    s.writeHazard b = decide (b ∈ readSet i ∨ b ∈ writeSet i) := by
  simp [State.writeHazard, latchReads, latchWrites, hb, hd]

/-- An unassigned OP has neither set, so nothing conflicts with it (R194). -/
theorem writeHazard_of_unassigned (hw : wordOpAssigned s.latch = false) : s.writeHazard b = false := by
  simp [State.writeHazard, latchReads, latchWrites, wordOpAssigned_eq_false_iff.1 hw]

theorem step_write_hazard (hz : s.writeHazard b = true) (ho : o < s.size b)
    (h : s.turns = .host (.write (s.params.base + bufferOffset b o) 8 d) :: ts) :
    step s = .fault (.bufferHazard { s with turns := ts }) := by
  rw [step_cons h]
  exact (host_write_buffer (s := { s with turns := ts }) (by rwa [size_setTurns])).trans (if_pos hz)

/-- The conflict is found before the byte is looked up. -/
theorem step_read_hazard (hz : s.readHazard b = true) (ho : o < s.size b)
    (h : s.turns = .host (.read (s.params.base + bufferOffset b o) 8) :: ts) :
    step s = .fault (.bufferHazard { s with turns := ts }) := by
  rw [step_cons h]
  exact (host_read_buffer (s := { s with turns := ts }) (by rwa [size_setTurns])).trans (if_pos hz)

/-- A permitted write stores its byte and changes no other byte and no register (R51, R194). -/
theorem step_write_permitted (hz : s.writeHazard b = false) (ho : o < s.size b)
    (h : s.turns = .host (.write (s.params.base + bufferOffset b o) 8 d) :: ts) :
    ∃ t, step s = .next t ∧ t.byte b o = some (d.setWidth 8)
      ∧ (∀ b' o', (b' ≠ b ∨ o' ≠ o) → t.byte b' o' = s.byte b' o')
      ∧ t = { s with turns := ts, pbuf := t.pbuf, fbuf := t.fbuf } := by
  obtain ⟨t, hstep, hbyte, hothers, hframe, -⟩ := hostBufferWrite s ts b o d hz ho h
  exact ⟨t, hstep, hbyte, hothers, hframe⟩

/-- Settles O32: the sets are the table's, and an access is a hazard or permitted as the running command's sets say. -/
theorem bufferHazards : Obligations.BufferHazards := by
  refine ⟨fun _ _ _ => ⟨rfl, rfl⟩, fun _ _ _ => ⟨rfl, rfl⟩, by simp [readSet, writeSet], by simp [readSet, writeSet],
    fun _ _ => ⟨rfl, rfl⟩, ⟨rfl, rfl⟩, ⟨rfl, rfl⟩, fun s ts b o d hb ho => ⟨fun i hd => ?_, fun hw => ?_⟩⟩
  · have hread := readHazard_eq_decide (b := b) hb hd
    have hwrite := writeHazard_eq_decide (b := b) hb hd
    refine ⟨fun h hmem => ?_, fun h hmem => ?_, fun v h hmem _ => ?_, fun v h hmem hv => ?_⟩
    · exact step_write_hazard (hwrite.trans (decide_eq_true hmem)) ho h
    · exact step_write_permitted (hwrite.trans (decide_eq_false hmem)) ho h
    · exact step_read_hazard (hread.trans (decide_eq_true hmem)) ho h
    · exact (hostBufferRead s ts b o (hread.trans (decide_eq_false hmem)) ho h).1 v hv
  · have hz : s.writeHazard b = false := writeHazard_of_unassigned hw
    exact ⟨step_write_permitted hz ho, fun v h hv => (hostBufferRead s ts b o (readHazard_of_writeHazard hz) ho h).1 v hv⟩

/-- Settles O33: a conflicting read is a hazard whether or not the byte is written. -/
theorem hazardIsReportedBeforeUnwritten : Obligations.HazardIsReportedBeforeUnwritten :=
  fun _ _ _ _ _ hb ho hd hmem _ h => step_read_hazard ((readHazard_eq_decide hb hd).trans (decide_eq_true hmem)) ho h

/-! ### Accesses at the edges of the window's regions -/

/-- Settles O30: the admission looks at the access's first byte and width alone. -/
theorem accessesAreClassifiedByTheirFirstByte : Obligations.AccessesAreClassifiedByTheirFirstByte := by
  intro s a ts off h ha hoff
  rw [← frameSize_eq_ite] at hoff
  exact step_badAccess h ha hoff

/-- An address below BASE or past the 512 bytes from it has no offset in the window (R41). -/
theorem windowOffset_eq_none {p : Params} {addr : Nat} (h : addr < p.base ∨ p.base + 0x200 ≤ addr) :
    windowOffset p addr = none :=
  if_neg (by omega)

/-- Settles O31: such an access has no offset in the window, so nothing of the block is reached. -/
theorem outsideTheWindowIsRefused : Obligations.OutsideTheWindowIsRefused := by
  intro s a ts h ha
  rw [step_cons h, takeTurn, hostAccess, windowOffset_eq_none ha]

end Sys2Proof.Machine
